-- ==== Sys2Proof/Word.lean ====
section
/-! DEFINITION. The words of IHEX-FRD: bytes and the 10-bit command word (00_scope.md R11, 30_encoding.md R70). -/

namespace Sys2Proof

/-- A byte is 8 bits (R11). -/
abbrev Byte := BitVec 8

/-- The command word `cmd`: `cmd[9:8]` is the command code, `cmd[7:0]` the byte to feed (R70). -/
abbrev CmdWord := BitVec 10

end Sys2Proof
end

