-- ==== Sys2Proof/Syntax.lean ====
section
/-! DEFINITION. The 30 rows of spec/opcode_table.json as one inductive, the four formats their codes come in, and the
enumerated codes of 10_state.md (R25, R26, R27). A reserved code has no constructor (30_encoding.md R82). -/

namespace Sys2Proof

/-- `feed_status` (R25). Code 3 is reserved and never produced. -/
inductive FeedStatus where
  | busy
  | lineComplete
  | overflow
deriving DecidableEq, Repr

/-- `dec_status` (R27). Codes 6 and 7 are reserved and never produced. -/
inductive DecStatus where
  | idle
  | busy
  | successful
  | checksumError
  | parseError
  | invalidDigit
deriving DecidableEq, Repr

/-- `dec_state`, the decoder's program counter (R26): a 9-valued type, as R82 asks. -/
inductive DecState where
  | init
  | getLength
  | getAddress
  | getType
  | getData
  | getExt
  | getChecksum
  | error
  | done
deriving DecidableEq, Repr

/-- One constructor per row of the opcode table: the 4 host commands (R71), the 5 Line Assembler paths a FEED takes
(R80), the 9 decoder operations (R26), and the 12 classes of the record type byte (R76, R77).
An operand `b` is the byte fed; an operand `tt` is the record type byte of an unknown type. -/
inductive Instr where
  | nop
  | feed (b : Byte)
  | decode
  | init
  | laStart
  | laDiscard (b : Byte)
  | laTerm
  | laStore (b : Byte)
  | laOverflow (b : Byte)
  | decInit
  | decGetLength
  | decGetAddress
  | decGetType
  | decGetData
  | decGetExt
  | decGetChecksum
  | decError
  | decDone
  | recData
  | recEof
  | recExtSegmentAddress
  | recStartSegmentAddress
  | recExtLinearAddress
  | recStartLinearAddress
  | recUnknown06 (tt : Byte)
  | recUnknown08 (tt : Byte)
  | recUnknown10 (tt : Byte)
  | recUnknown20 (tt : Byte)
  | recUnknown40 (tt : Byte)
  | recUnknown80 (tt : Byte)
deriving DecidableEq, Repr

/-- What a row's bits are the bits of: the table's four formats CMD, LA_BYTE, DEC_STATE and REC_TYPE. The block decodes
each in its own place, so equal bits in two formats are two codes. For a fed byte, `active` and `full` are the context
that R80 classifies it in: `la_active = 1`, and `wr_ptr` at LINE_CAP. -/
inductive CodeWord where
  | cmd (w : CmdWord)
  | laByte (active full : Bool) (b : Byte)
  | decState (code : BitVec 4)
  | recType (tt : Byte)
deriving DecidableEq, Repr

/-- Why the decoder rejects a code: only a reserved `dec_state` code names nothing (R82). -/
inductive DecodeError where
  | reservedDecState (code : BitVec 4)
deriving DecidableEq, Repr

/-- What decoding a code gives. -/
inductive Decoded where
  | ok (i : Instr)
  | rejected (e : DecodeError)
deriving DecidableEq, Repr

end Sys2Proof
end

