-- ==== Sys2Proof/WellFormed.lean ====
section
/-! DEFINITION. Which terms of `Instr` stand for an event of the block: the operand byte lies in the row's class
(30_encoding.md R77 and R80). -/

namespace Sys2Proof

/-- A byte lies in the match and mask class of a row (R77). -/
def inClass (mask pattern b : Byte) : Bool := b &&& mask == pattern

/-- The check on an instruction's operand: a discarded byte is no start marker, a stored or overflowing byte is no
terminator (R80), and an unknown type byte lies in its row's class (R77). Every other term is well formed. -/
def WellFormed : Instr → Bool
  | .laDiscard b => b != 0x3A#8
  | .laStore b => b != 0x0D#8
  | .laOverflow b => b != 0x0D#8
  | .recUnknown06 tt => inClass 0xFE#8 0x06#8 tt
  | .recUnknown08 tt => inClass 0xF8#8 0x08#8 tt
  | .recUnknown10 tt => inClass 0xF0#8 0x10#8 tt
  | .recUnknown20 tt => inClass 0xE0#8 0x20#8 tt
  | .recUnknown40 tt => inClass 0xC0#8 0x40#8 tt
  | .recUnknown80 tt => inClass 0x80#8 0x80#8 tt
  | .nop => true
  | .feed _ => true
  | .decode => true
  | .init => true
  | .laStart => true
  | .laTerm => true
  | .decInit => true
  | .decGetLength => true
  | .decGetAddress => true
  | .decGetType => true
  | .decGetData => true
  | .decGetExt => true
  | .decGetChecksum => true
  | .decError => true
  | .decDone => true
  | .recData => true
  | .recEof => true
  | .recExtSegmentAddress => true
  | .recStartSegmentAddress => true
  | .recExtLinearAddress => true
  | .recStartLinearAddress => true

end Sys2Proof
end

