-- ==== Sys2Proof/Decode.lean ====
section
/-! DEFINITION. The decoder of each of the table's four formats, the codes of 10_state.md, and the encoder
(30_encoding.md). -/

namespace Sys2Proof

/-- `START_CHAR`, the start marker `:` (R7). -/
def startChar : Byte := 0x3A#8

/-- `TERM_CHAR`, carriage return (R7). -/
def termChar : Byte := 0x0D#8

/-- Line feed, the keyword `LF` of R83. -/
def lineFeed : Byte := 0x0A#8

/-- The 2-bit code of `feed_status` (R25). -/
def FeedStatus.code : FeedStatus → BitVec 2
  | .busy => 0#2
  | .lineComplete => 1#2
  | .overflow => 2#2

/-- The 3-bit code of `dec_status` (R27). -/
def DecStatus.code : DecStatus → BitVec 3
  | .idle => 0#3
  | .busy => 1#3
  | .successful => 2#3
  | .checksumError => 3#3
  | .parseError => 4#3
  | .invalidDigit => 5#3

/-- Values 2 to 5 of `dec_status` are terminal (R27). -/
def DecStatus.terminal (d : DecStatus) : Bool := 2 ≤ d.code.toNat

/-- The 4-bit code of `dec_state` (R26). -/
def DecState.code : DecState → BitVec 4
  | .init => 0#4
  | .getLength => 1#4
  | .getAddress => 2#4
  | .getType => 3#4
  | .getData => 4#4
  | .getExt => 5#4
  | .getChecksum => 6#4
  | .error => 7#4
  | .done => 8#4

/-- The `dec_state` a code names; 9 to 15 are reserved (R26, R82). -/
def decStateOfCode (c : BitVec 4) : Option DecState :=
  match c.toNat with
  | 0 => some .init
  | 1 => some .getLength
  | 2 => some .getAddress
  | 3 => some .getType
  | 4 => some .getData
  | 5 => some .getExt
  | 6 => some .getChecksum
  | 7 => some .error
  | 8 => some .done
  | _ => none

/-- `op = cmd[9:8]` (R70). -/
def cmdOp (w : CmdWord) : BitVec 2 := w.extractLsb' 8 2

/-- `data = cmd[7:0]` (R70). -/
def cmdData (w : CmdWord) : Byte := w.extractLsb' 0 8

/-- The command a word carries: total, and the data bits of NOP, DECODE and INIT are ignored (R71 to R73). -/
def decodeCommand (w : CmdWord) : Instr :=
  match (cmdOp w).toNat with
  | 0 => .nop
  | 1 => .feed (cmdData w)
  | 2 => .decode
  | _ => .init

/-- The path a fed byte takes: the rows of R80, the first that matches. `full` says that `wr_ptr` is at LINE_CAP. -/
def classifyByte (active full : Bool) (b : Byte) : Instr :=
  if active = false then
    if b = startChar then .laStart else .laDiscard b
  else if b = termChar then .laTerm
  else if full = false then .laStore b
  else .laOverflow b

/-- The operation a `dec_state` selects (R81, R140). -/
def decStateInstr : DecState → Instr
  | .init => .decInit
  | .getLength => .decGetLength
  | .getAddress => .decGetAddress
  | .getType => .decGetType
  | .getData => .decGetData
  | .getExt => .decGetExt
  | .getChecksum => .decGetChecksum
  | .error => .decError
  | .done => .decDone

/-- The class of a record type byte: the six types of R76, and the six match and mask classes of unknown types (R77). -/
def decodeRecType (tt : Byte) : Instr :=
  if tt = 0x00#8 then .recData
  else if tt = 0x01#8 then .recEof
  else if tt = 0x02#8 then .recExtSegmentAddress
  else if tt = 0x03#8 then .recStartSegmentAddress
  else if tt = 0x04#8 then .recExtLinearAddress
  else if tt = 0x05#8 then .recStartLinearAddress
  else if inClass 0xFE#8 0x06#8 tt then .recUnknown06 tt
  else if inClass 0xF8#8 0x08#8 tt then .recUnknown08 tt
  else if inClass 0xF0#8 0x10#8 tt then .recUnknown10 tt
  else if inClass 0xE0#8 0x20#8 tt then .recUnknown20 tt
  else if inClass 0xC0#8 0x40#8 tt then .recUnknown40 tt
  else .recUnknown80 tt

/-- The decoder of all four formats, total: only a reserved `dec_state` code is rejected, by name (R82). -/
def decode : CodeWord → Decoded
  | .cmd w => .ok (decodeCommand w)
  | .laByte active full b => .ok (classifyByte active full b)
  | .decState c =>
    match decStateOfCode c with
    | some k => .ok (decStateInstr k)
    | none => .rejected (.reservedDecState c)
  | .recType tt => .ok (decodeRecType tt)

/-- A command word from its two fields (R70). -/
def cmdWord (op : BitVec 2) (data : Byte) : CmdWord := op ++ data

/-- The code of a well-formed instruction; ignored command bits are written 0 (R84). A class that no `wr_ptr` decides is
written with `full` false. -/
def encode : Instr → CodeWord
  | .nop => .cmd (cmdWord 0#2 0#8)
  | .feed b => .cmd (cmdWord 1#2 b)
  | .decode => .cmd (cmdWord 2#2 0#8)
  | .init => .cmd (cmdWord 3#2 0#8)
  | .laStart => .laByte false false startChar
  | .laDiscard b => .laByte false false b
  | .laTerm => .laByte true false termChar
  | .laStore b => .laByte true false b
  | .laOverflow b => .laByte true true b
  | .decInit => .decState DecState.init.code
  | .decGetLength => .decState DecState.getLength.code
  | .decGetAddress => .decState DecState.getAddress.code
  | .decGetType => .decState DecState.getType.code
  | .decGetData => .decState DecState.getData.code
  | .decGetExt => .decState DecState.getExt.code
  | .decGetChecksum => .decState DecState.getChecksum.code
  | .decError => .decState DecState.error.code
  | .decDone => .decState DecState.done.code
  | .recData => .recType 0x00#8
  | .recEof => .recType 0x01#8
  | .recExtSegmentAddress => .recType 0x02#8
  | .recStartSegmentAddress => .recType 0x03#8
  | .recExtLinearAddress => .recType 0x04#8
  | .recStartLinearAddress => .recType 0x05#8
  | .recUnknown06 tt => .recType tt
  | .recUnknown08 tt => .recType tt
  | .recUnknown10 tt => .recType tt
  | .recUnknown20 tt => .recType tt
  | .recUnknown40 tt => .recType tt
  | .recUnknown80 tt => .recType tt

/-- The code that a bare word of the opcode table stands for. More than 8 bits: a command word, of which the port has 10.
At most 8 bits: the table's three other formats overlap as numbers and nothing in the word tells them apart, so the two
Line Assembler characters come first, then the 9 `dec_state` codes, then a record type byte
(DESIGN CHOICE, notes/assumptions/3.md). -/
def tableCodeWord (nbits w : Nat) : CodeWord :=
  if 8 < nbits then .cmd (BitVec.ofNat 10 w)
  else if w = 0x3A then .laByte false false startChar
  else if w = 0x0D then .laByte true false termChar
  else if w < 9 then .decState (BitVec.ofNat 4 w)
  else .recType (BitVec.ofNat 8 w)

/-- The instruction the decoder reads from a bare word of the opcode table, `nbits` bits long. -/
def decodeTableWord (nbits w : Nat) : Option Instr :=
  match decode (tableCodeWord nbits w) with
  | .ok i => some i
  | .rejected _ => none

end Sys2Proof
end

