-- ==== Sys2Proof/Config.lean ====
section
/-! DEFINITION. What an instance fixes when it is built (00_scope.md R5 and R8, 93_implementation_defined.md I1 and I8).
The quantities derived from these (R6, R9) are in Machine/Params.lean. -/

namespace Sys2Proof

/-- The width of the address field of an address record: R8 allows 2 or 4 bytes, nothing else. -/
inductive ExtWidth where
  | two
  | four
deriving DecidableEq, Repr

/-- The parameters of an instance: `MAX_DATA_BYTES` (R5) and `EXT_BYTES(t)` for the types 02 to 05 (R8). -/
structure Config where
  maxDataBytes : Nat
  ext02 : ExtWidth
  ext03 : ExtWidth
  ext04 : ExtWidth
  ext05 : ExtWidth
deriving DecidableEq, Repr

/-- The defaults: 16 payload bytes (R5), and 2 bytes for the segment forms, 4 for the linear forms (R8). -/
def Config.default : Config :=
  { maxDataBytes := 16, ext02 := .two, ext03 := .two, ext04 := .four, ext05 := .four }

/-- The widths of the published Intel HEX format, the alternative that R8 names (95_test_vectors.md section 2.6). -/
def Config.published : Config :=
  { maxDataBytes := 16, ext02 := .two, ext03 := .four, ext04 := .two, ext05 := .four }

end Sys2Proof
end

