-- ==== Sys2Proof/Machine/Params.lean ====
section
/-! DEFINITION. The quantities that follow from the parameters (00_scope.md R6, R8, R9). -/

namespace Sys2Proof

/-- `LINE_CAP = 2 + 4 + 2 + 2*MAX_DATA_BYTES + 2` (R6). -/
def Config.lineCap (c : Config) : Nat := 2 + 4 + 2 + 2 * c.maxDataBytes + 2

/-- `ceil(log2(n + 1))`: the bits of a register that holds 0 to `n` (R9). -/
def bitsToHold (n : Nat) : Nat := if n = 0 then 0 else Nat.log2 n + 1

/-- `PTR_W`, the width of `wr_ptr`, `line_len` and `rd_ptr` (R9). -/
def Config.ptrW (c : Config) : Nat := bitsToHold c.lineCap

/-- `DIDX_W`, the width of `didx` (R9). -/
def Config.didxW (c : Config) : Nat := bitsToHold c.maxDataBytes

/-- The number of bytes an `ExtWidth` stands for (R8). -/
def ExtWidth.bytes : ExtWidth → Nat
  | .two => 2
  | .four => 4

/-- `EXT_BYTES(t)`, for the types of address records only (R8). -/
def Config.extBytes (c : Config) (t : Byte) : Option Nat :=
  if t = 0x02#8 then some c.ext02.bytes
  else if t = 0x03#8 then some c.ext03.bytes
  else if t = 0x04#8 then some c.ext04.bytes
  else if t = 0x05#8 then some c.ext05.bytes
  else none

end Sys2Proof
end

