-- ==== Sys2Proof/Machine/State.lean ====
section
/-! DEFINITION. The state of one IHEX-FRD: the tuple of 10_state.md R20, group by group, and two fields of the model's own
(`inputs`, what the host drives on the ports `rst` and `cmd` in the cycles to come, and `cfg`, the parameters the
instance was built with: notes/assumptions/1.md and 2.md). -/

namespace Sys2Proof.Machine

/-- Why a step stops. R207: no input sequence makes the block fault, so each of these stands only for a case that no run
reaches; the rules of the spec give no effect there. Each is safe: the model stops and proves nothing. -/
inductive Fault where
  /-- A read or write of `LB` at an index the buffer does not have (R14, R50, R51): raised by the field reads and LA_STORE. -/
  | lineBufferRange (i : Nat)
  /-- A read of a cell of `LB` that nothing has written (R44, I2): raised by the field reads. -/
  | lineBufferUnwritten (i : Nat)
  /-- A write of `PAY` at an index the store does not have (R14, R52): raised by GET_DATA. -/
  | payloadRange (i : Nat)
  /-- GET_EXT with a `rec_type` that names no address record, for which `EXT_BYTES` is not defined (R8, R157). -/
  | extTypeUndefined (tt : Byte)
deriving DecidableEq, Repr

/-- Why an instruction is refused. -/
inductive Refusal where
  /-- An instruction that has no meaning yet: raised by an arm of `exec` alone, safe. No arm raises it. -/
  | notModelled (mnemonic : String)
deriving DecidableEq, Repr

/-- An indexed store of bytes (R50), as its listed cells. The canonical form is `Memory.wf` in Machine/Ops.lean. -/
structure Memory where
  cells : List Host.Cell
deriving DecidableEq, Repr

/-- The Line Assembler's state (R20, R21 to R25). -/
structure LineAsm where
  /-- `la_active` (R21). -/
  active : Bool
  /-- `wr_ptr`, 0 to LINE_CAP (R22). -/
  wrPtr : Nat
  /-- `LB[0 .. LINE_CAP-1]` (R23). -/
  lb : Memory
  /-- `line_len`, 0 to LINE_CAP (R24). -/
  lineLen : Nat
  /-- `feed_status` (R25). -/
  feedStatus : FeedStatus
deriving DecidableEq, Repr

/-- The Record Decoder's state (R20, R26 to R29). -/
structure Decoder where
  /-- `dec_state` (R26). -/
  state : DecState
  /-- `dec_status` (R27). -/
  status : DecStatus
  /-- `rd_ptr`, 0 to LINE_CAP (R28). -/
  rdPtr : Nat
  /-- `didx`, 0 to MAX_DATA_BYTES (R29). -/
  didx : Nat
deriving DecidableEq, Repr

/-- The record registers (R20, R30 to R37). -/
structure Record where
  /-- `rec_length` (R30). -/
  length : BitVec 8
  /-- `rec_address` (R31). -/
  address : BitVec 16
  /-- `rec_type` (R32). -/
  type : BitVec 8
  /-- `rec_offset` (R33). -/
  offset : BitVec 32
  /-- `rec_start` (R34). -/
  start : BitVec 32
  /-- `rec_checksum` (R35). -/
  checksum : BitVec 8
  /-- `rec_valid` (R36). -/
  valid : Bool
  /-- `PAY[0 .. MAX_DATA_BYTES-1]` (R37). -/
  pay : Memory
deriving DecidableEq, Repr

/-- What the host drives in one cycle: the inputs `rst` and `cmd` of R41. -/
structure CycleInput where
  rst : Bool
  cmd : CmdWord
deriving DecidableEq, Repr

/-- The whole state: the three groups of R20, and the model's own `inputs` and `cfg`. -/
structure State where
  la : LineAsm
  dec : Decoder
  rcd : Record
  /-- The MODEL's field: the inputs of the cycles to come, the next one first. -/
  inputs : List CycleInput
  /-- The MODEL's field: the parameters of the instance (R5, R8, R42); no step changes them. -/
  cfg : Config
deriving DecidableEq, Repr

/-- The Line Assembler in `RESET_STATE` (R230). No cell of `LB` is listed: its contents are unspecified (R23, R44). A reset
later in a run keeps the cells (R233; `applyReset` in Machine/Ops.lean). -/
def LineAsm.reset : LineAsm :=
  { active := false, wrPtr := 0, lb := ⟨[]⟩, lineLen := 0, feedStatus := .busy }

/-- The Record Decoder in `RESET_STATE` (R230). -/
def Decoder.reset : Decoder := { state := .init, status := .idle, rdPtr := 0, didx := 0 }

/-- The record registers in `RESET_STATE` (R230). No cell of `PAY` is listed: each reads as 0x00 (R37). -/
def Record.reset : Record :=
  { length := 0, address := 0, type := 0, offset := 0, start := 0, checksum := 0, valid := false, pay := ⟨[]⟩ }

/-- `RESET_STATE` (R230) of an instance built with the parameters `c`, before the inputs `ins`. -/
def State.resetWith (c : Config) (ins : List CycleInput) : State :=
  { la := LineAsm.reset, dec := Decoder.reset, rcd := Record.reset, inputs := ins, cfg := c }

/-- The machine right after reset, with the default parameters and nothing driven yet (R230, R232). -/
def State.reset : State := State.resetWith Config.default []

end Sys2Proof.Machine
end

