-- ==== Sys2Proof/Machine/Ops.lean ====
section
/-! DEFINITION. The named operations over the two stores and the registers: memory access (20_memory.md), the updates of
each group of State, the decoder's control primitives `goto`, `raise` and `finish` (00_scope.md R15), the Line
Assembler's five paths (40_line_assembler.md) and reset (70_reset_and_hazards.md R231).
The block takes no exception (60_exceptions.md R204, R207): `raiseParse` and `finish` are all there is to error entry. -/

namespace Sys2Proof.Machine

/-! ### The two stores -/

/-- The listed byte at an index. -/
def lookupCell : List Host.Cell → Nat → Option Byte
  | [], _ => none
  | (a, b) :: r, i => if a = i then some b else lookupCell r i

/-- The cells with index `i` taken out. -/
def eraseCell : List Host.Cell → Nat → List Host.Cell
  | [], _ => []
  | (a, b) :: r, i => if a = i then eraseCell r i else (a, b) :: eraseCell r i

/-- The cells with `v` at index `i`, indices still rising. -/
def insertCell : List Host.Cell → Nat → Byte → List Host.Cell
  | [], i, v => [(i, v)]
  | (a, b) :: r, i, v =>
    if a = i then (i, v) :: r
    else if i < a then (i, v) :: (a, b) :: r
    else (a, b) :: insertCell r i v

/-- What an unlisted cell of `LB` reads as: nothing. Its contents after reset are unspecified (R23), and 93 I2 asks for a
fault on reading a cell that was never written. -/
def lineUnlisted : Option Byte := none

/-- What an unlisted cell of `PAY` reads as: 0x00, its reset value (R37, R230). -/
def payUnlisted : Option Byte := some 0x00#8

/-- The byte a store holds at an index, where an unlisted cell reads as `d`. -/
def Memory.read (d : Option Byte) (m : Memory) (i : Nat) : Option Byte :=
  match lookupCell m.cells i with
  | some b => some b
  | none => d

/-- A store with one byte written, where an unlisted cell reads as `d`; the canonical form is kept. -/
def Memory.write (d : Option Byte) (m : Memory) (i : Nat) (v : Byte) : Memory :=
  if d = some v then ⟨eraseCell m.cells i⟩ else ⟨insertCell m.cells i v⟩

/-- The indices of the cells rise strictly, from `lo` on. -/
def cellsRising : Nat → List Host.Cell → Bool
  | _, [] => true
  | lo, (a, _) :: r => decide (lo ≤ a) && cellsRising (a + 1) r

/-- The canonical form of a store of `cap` cells whose unlisted cells read as `d`: indices strictly rising and below
`cap`, and no listed byte equal to what an unlisted cell reads as. -/
def Memory.wf (d : Option Byte) (cap : Nat) (m : Memory) : Bool :=
  cellsRising 0 m.cells && m.cells.all (fun c => decide (c.1 < cap) && decide (d ≠ some c.2))

/-! ### Updates of State -/

/-- Replace the Line Assembler group. -/
def State.setLa (s : State) (l : LineAsm) : State := { s with la := l }

/-- Replace the Record Decoder group. -/
def State.setDec (s : State) (d : Decoder) : State := { s with dec := d }

/-- Replace the record group. -/
def State.setRcd (s : State) (r : Record) : State := { s with rcd := r }

/-- Replace the inputs to come. -/
def State.setInputs (s : State) (ins : List CycleInput) : State := { s with inputs := ins }

/-- One cell of `LB` as the model reads it: `none` where the buffer has no such cell or nothing has written it. -/
def State.lineByte (s : State) (i : Nat) : Option Byte :=
  if i < s.cfg.lineCap then s.la.lb.read lineUnlisted i else none

/-- One cell of `PAY` as the port `rec_data` shows it (R41): `none` where the store has no such cell. -/
def State.payByte (s : State) (i : Nat) : Option Byte :=
  if i < s.cfg.maxDataBytes then s.rcd.pay.read payUnlisted i else none

/-! ### Control of the decoder -/

/-- `goto S` (R15). -/
def goto (k : DecState) (s : State) : State := s.setDec { s.dec with state := k }

/-- `raise ParseError()`: go to ERROR, with no other write (R15, R204). -/
def raiseParse (s : State) : State := goto .error s

/-- `finish X`: the terminal status and DONE (R15, R204). -/
def finish (x : DecStatus) (s : State) : State := s.setDec { s.dec with status := x, state := .done }

/-- Move the read cursor over `n` characters (R39). -/
def advance (n : Nat) (s : State) : State := s.setDec { s.dec with rdPtr := s.dec.rdPtr + n }

/-! ### The Line Assembler's paths -/

/-- LA_START (R101). -/
def lineStart (l : LineAsm) : LineAsm :=
  { l with active := true, wrPtr := 0, lineLen := 0, feedStatus := .busy }

/-- LA_DISCARD (R105). -/
def lineDiscard (l : LineAsm) : LineAsm := { l with feedStatus := .busy }

/-- LA_TERM (R102). -/
def lineTerm (l : LineAsm) : LineAsm :=
  { l with lineLen := l.wrPtr, active := false, wrPtr := 0, feedStatus := .lineComplete }

/-- LA_STORE (R103): `MemWrite(wr_ptr, 1, b)` and the cursor one on. -/
def lineStore (b : Byte) (l : LineAsm) : LineAsm :=
  { l with lb := l.lb.write lineUnlisted l.wrPtr b, wrPtr := l.wrPtr + 1, feedStatus := .busy }

/-- LA_OVERFLOW (R104). -/
def lineOverflow (l : LineAsm) : LineAsm :=
  { l with wrPtr := 0, active := false, lineLen := 0, feedStatus := .overflow }

/-- The whole Line Assembler step for a fed byte (R100). -/
def lineFeedByte (cap : Nat) (b : Byte) (l : LineAsm) : LineAsm :=
  if l.active = false then
    if b = startChar then lineStart l else lineDiscard l
  else if b = termChar then lineTerm l
  else if l.wrPtr < cap then lineStore b l
  else lineOverflow l

/-! ### Reset -/

/-- A cycle with `rst = 1`: `RESET_STATE`, whatever the state was (R231). Reset does not write `LB`, whose contents R230
leaves unspecified, so its cells stay (R233). The instance keeps its parameters (R42), and the inputs to come are the
host's. -/
def applyReset (s : State) : State :=
  (State.resetWith s.cfg s.inputs).setLa { LineAsm.reset with lb := s.la.lb }

end Sys2Proof.Machine
end

