-- ==== Sys2Proof/Machine/Operands.lean ====
section
/-! DEFINITION. The operand forms: hex digits, pairs and byte order (41_hex_and_checksum.md R120 to R123), and the
decoder's one read primitive, `readfield` with its checks (42_record_decoder.md R142, R143, R144). -/

namespace Sys2Proof.Machine

/-- `hexval(c)`; `none` is INVALID (R120). -/
def hexval (c : Byte) : Option (BitVec 4) :=
  if 0x30#8 ≤ c ∧ c ≤ 0x39#8 then some ((c - 0x30#8).setWidth 4)
  else if 0x41#8 ≤ c ∧ c ≤ 0x46#8 then some ((c - 0x37#8).setWidth 4)
  else if 0x61#8 ≤ c ∧ c ≤ 0x66#8 then some ((c - 0x57#8).setWidth 4)
  else none

/-- `pairval(c_hi, c_lo)`: the first character is the high nibble (R121). -/
def pairval (cHi cLo : Byte) : Option Byte :=
  match hexval cHi, hexval cLo with
  | some h, some l => some ((h.setWidth 8 <<< 4) ||| l.setWidth 8)
  | _, _ => none

/-- `pairs(chars)`; a single character left over is no pair (R122). -/
def pairs : List Byte → Option (List Byte)
  | [] => some []
  | [_] => none
  | c0 :: c1 :: r =>
    match pairval c0 c1, pairs r with
    | some b, some bs => some (b :: bs)
    | _, _ => none

/-- `be(bytes)`, most significant byte first (R123, R54). -/
def be (bs : List Byte) : Nat := bs.foldl (fun v b => v * 256 + b.toNat) 0

/-- One character of `LB`: it faults outside the buffer (R51) and on a cell nothing has written (R44, I2). -/
def readLineCell (cap : Nat) (lb : Memory) (i : Nat) : Except Fault Byte :=
  if i < cap then
    match lb.read lineUnlisted i with
    | some b => .ok b
    | none => .error (.lineBufferUnwritten i)
  else .error (.lineBufferRange i)

/-- `MemRead(i, n)` (R14). -/
def memRead (cap : Nat) (lb : Memory) : Nat → Nat → Except Fault (List Byte)
  | _, 0 => .ok []
  | i, n + 1 =>
    match readLineCell cap lb i with
    | .error f => .error f
    | .ok b =>
      match memRead cap lb (i + 1) n with
      | .error f => .error f
      | .ok bs => .ok (b :: bs)

/-- What `readfield` can give. -/
inductive FieldResult where
  /-- The decoded bytes. -/
  | bytes (bs : List Byte)
  /-- The bound check failed (R142). -/
  | short
  /-- A character is no hex digit (R143). -/
  | badDigit
  /-- The read left the cells written; no run reaches it (R44). -/
  | stopped (f : Fault)
deriving DecidableEq, Repr

/-- `readfield(n)`: the bound check `need(2n)` first, then the digits of all `2n` characters (R142, R143, R144). -/
def readField (n : Nat) (s : State) : FieldResult :=
  if s.dec.rdPtr + 2 * n > s.la.lineLen then .short
  else
    match memRead s.cfg.lineCap s.la.lb s.dec.rdPtr (2 * n) with
    | .error f => .stopped f
    | .ok chars =>
      match pairs chars with
      | some bs => .bytes bs
      | none => .badDigit

/-- A field step: `readfield(n)` before every write of its own (R143), then `k` on the bytes. A short line raises
ParseError, a bad digit finishes the pass, and neither writes anything else. -/
def withField (n : Nat) (s : State) (k : List Byte → Host.Outcome State Fault Refusal) :
    Host.Outcome State Fault Refusal :=
  match readField n s with
  | .bytes bs => k bs
  | .short => .next (raiseParse s)
  | .badDigit => .next (finish .invalidDigit s)
  | .stopped f => .fault f

end Sys2Proof.Machine
end

