-- ==== Sys2Proof/Machine/Flags.lean ====
section
/-! DEFINITION. The checksum and the validity flag (41_hex_and_checksum.md R124 to R127, 10_state.md R35, R36). The block has
no other flag computation (R40). -/

namespace Sys2Proof.Machine

/-- `sum8(bytes)`, modulo 256 (R124). -/
def sum8 (bs : List Byte) : Byte := bs.foldl (fun a b => a + b) 0#8

/-- `neg8(s) = (~s + 1) & 0xFF` (R125, R12). -/
def neg8 (x : Byte) : Byte := ~~~x + 1#8

/-- The transmitted checksum byte `cc` matches the running sum (R127). -/
def checksumMatches (sum cc : Byte) : Bool := cc == neg8 sum

/-- Checksum accumulation (R126). -/
def accumulate (bs : List Byte) (s : State) : State :=
  s.setRcd { s.rcd with checksum := s.rcd.checksum + sum8 bs }

end Sys2Proof.Machine
end

