-- ==== Sys2Proof/Machine/Commands.lean ====
section
/-! DEFINITION. The host commands' own effects (43_commands.md R181 to R184). The decoder step that a cycle takes beside a
command is composed in Machine/Cycle.lean (R180). -/

namespace Sys2Proof.Machine

/-- NOP (R184): no write. -/
def execNop (s : State) : Host.Outcome State Fault Refusal := .next s

/-- FEED (R181): the Line Assembler step of R100, and nothing outside the Line Assembler. -/
def execFeed (b : Byte) (s : State) : Host.Outcome State Fault Refusal :=
  .next (s.setLa (lineFeedByte s.cfg.lineCap b s.la))

/-- DECODE (R182): start a pass; ignored while one runs. -/
def execDecode (s : State) : Host.Outcome State Fault Refusal :=
  if s.dec.status = .busy then .next s
  else .next (s.setDec { s.dec with state := .init, status := .busy })

/-- INIT (R183): both machines to their initial state; `LB`, `rec_*` and `PAY` are kept. -/
def execInit (s : State) : Host.Outcome State Fault Refusal :=
  .next
    ((s.setLa { s.la with active := false, wrPtr := 0, lineLen := 0, feedStatus := .busy }).setDec
      { state := .init, status := .idle, rdPtr := 0, didx := 0 })

end Sys2Proof.Machine
end

