-- ==== Sys2Proof/Machine/LineAssembler.lean ====
section
/-! DEFINITION. The five paths of a FEED (40_line_assembler.md R101 to R105). A path is selected by the classification of
30_encoding.md R80; here is what it does once selected (notes/assumptions/4.md). -/

namespace Sys2Proof.Machine

/-- LA_START (R101). -/
def execLaStart (s : State) : Host.Outcome State Fault Refusal := .next (s.setLa (lineStart s.la))

/-- LA_DISCARD (R105): the byte is dropped. -/
def execLaDiscard (_b : Byte) (s : State) : Host.Outcome State Fault Refusal :=
  .next (s.setLa (lineDiscard s.la))

/-- LA_TERM (R102). -/
def execLaTerm (s : State) : Host.Outcome State Fault Refusal := .next (s.setLa (lineTerm s.la))

/-- LA_STORE (R103). `MemWrite` is only used with `wr_ptr < LINE_CAP` (R14): there is no cell to write otherwise. -/
def execLaStore (b : Byte) (s : State) : Host.Outcome State Fault Refusal :=
  if s.la.wrPtr < s.cfg.lineCap then .next (s.setLa (lineStore b s.la))
  else .fault (.lineBufferRange s.la.wrPtr)

/-- LA_OVERFLOW (R104): the byte is not stored. -/
def execLaOverflow (_b : Byte) (s : State) : Host.Outcome State Fault Refusal :=
  .next (s.setLa (lineOverflow s.la))

end Sys2Proof.Machine
end

