-- ==== Sys2Proof/Machine/RecordTypes.lean ====
section
/-! DEFINITION. What a record type makes the decoder do (30_encoding.md R76, R77): its branch in GET_TYPE
(42_record_decoder.md R149 to R152) and, for an address record, its field in GET_EXT (R157 to R161). -/

namespace Sys2Proof.Machine

/-- `branch_DATA()` (R149). -/
def branchData (s : State) : State :=
  if s.rcd.length.toNat > s.cfg.maxDataBytes then raiseParse s
  else if s.rcd.length = 0#8 then goto .getChecksum s
  else goto .getData s

/-- `branch_EOF()` (R150). -/
def branchEof (s : State) : State := goto .getChecksum s

/-- `branch_EXT()` (R151). -/
def branchExt (s : State) : State := goto .getExt s

/-- `branch_UNKNOWN()` (R152). -/
def branchUnknown (s : State) : State := raiseParse s

/-- The branch on the type byte in GET_TYPE (R148). -/
def branchOnType (t : Byte) (s : State) : State :=
  if t = 0x00#8 then branchData s
  else if t = 0x01#8 then branchEof s
  else if t = 0x02#8 ∨ t = 0x03#8 ∨ t = 0x04#8 ∨ t = 0x05#8 then branchExt s
  else branchUnknown s

/-- The register a type's address field goes to: `rec_offset` for 02 and 04, `rec_start` for 03 and 05 (R157). -/
def writeExt (t : Byte) (v : BitVec 32) (s : State) : State :=
  if t = 0x02#8 ∨ t = 0x04#8 then s.setRcd { s.rcd with offset := v }
  else s.setRcd { s.rcd with start := v }

/-- The address field of type `t`: `EXT_BYTES(t)` bytes, zero-extended, into the type's register (R157 to R161). -/
def extField (t : Byte) (s : State) : Host.Outcome State Fault Refusal :=
  match s.cfg.extBytes t with
  | none => .fault (.extTypeUndefined t)
  | some n =>
    withField n s fun bs =>
      .next (goto .getChecksum (advance (2 * n) (accumulate bs (writeExt t (BitVec.ofNat 32 (be bs)) s))))

/-- What an address record's type does where the decoder stands: its field in GET_EXT (R158 to R161), its branch
everywhere else, which in a pass is GET_TYPE (R151) (notes/assumptions/5.md). -/
def addressRecord (t : Byte) (s : State) : Host.Outcome State Fault Refusal :=
  if s.dec.state = .getExt then extField t s else .next (branchExt s)

/-- REC_DATA, type 00 (R149). -/
def execRecData (s : State) : Host.Outcome State Fault Refusal := .next (branchData s)

/-- REC_EOF, type 01 (R150). -/
def execRecEof (s : State) : Host.Outcome State Fault Refusal := .next (branchEof s)

/-- REC_EXT_SEGMENT_ADDRESS, type 02 (R151, R158). -/
def execRecExtSegmentAddress (s : State) : Host.Outcome State Fault Refusal := addressRecord 0x02#8 s

/-- REC_START_SEGMENT_ADDRESS, type 03 (R151, R159). -/
def execRecStartSegmentAddress (s : State) : Host.Outcome State Fault Refusal := addressRecord 0x03#8 s

/-- REC_EXT_LINEAR_ADDRESS, type 04 (R151, R160). -/
def execRecExtLinearAddress (s : State) : Host.Outcome State Fault Refusal := addressRecord 0x04#8 s

/-- REC_START_LINEAR_ADDRESS, type 05 (R151, R161). -/
def execRecStartLinearAddress (s : State) : Host.Outcome State Fault Refusal := addressRecord 0x05#8 s

/-- REC_UNKNOWN_06_FE, types 06 and 07 (R77, R152). -/
def execRecUnknown06 (_tt : Byte) (s : State) : Host.Outcome State Fault Refusal := .next (branchUnknown s)

/-- REC_UNKNOWN_08_F8, types 08 to 0F (R77, R152). -/
def execRecUnknown08 (_tt : Byte) (s : State) : Host.Outcome State Fault Refusal := .next (branchUnknown s)

/-- REC_UNKNOWN_10_F0, types 10 to 1F (R77, R152). -/
def execRecUnknown10 (_tt : Byte) (s : State) : Host.Outcome State Fault Refusal := .next (branchUnknown s)

/-- REC_UNKNOWN_20_E0, types 20 to 3F (R77, R152). -/
def execRecUnknown20 (_tt : Byte) (s : State) : Host.Outcome State Fault Refusal := .next (branchUnknown s)

/-- REC_UNKNOWN_40_C0, types 40 to 7F (R77, R152). -/
def execRecUnknown40 (_tt : Byte) (s : State) : Host.Outcome State Fault Refusal := .next (branchUnknown s)

/-- REC_UNKNOWN_80_80, types 80 to FF (R77, R152). -/
def execRecUnknown80 (_tt : Byte) (s : State) : Host.Outcome State Fault Refusal := .next (branchUnknown s)

end Sys2Proof.Machine
end

