-- ==== Sys2Proof/Machine/RecordDecoder.lean ====
section
/-! DEFINITION. The decoder's nine state operations (42_record_decoder.md R145 to R148, R155 to R157, R162, R163). Which one
runs, and whether one runs at all in a cycle, is Machine/Cycle.lean's (R140). Each reads only the state at the start of
the cycle; where a rule writes a register and then branches on it, the branch takes the value written (R17). -/

namespace Sys2Proof.Machine

/-- The record registers the INIT step zeroes: all but `PAY` (R145). -/
def Record.cleared (r : Record) : Record :=
  { length := 0, address := 0, type := 0, offset := 0, start := 0, checksum := 0, valid := false, pay := r.pay }

/-- op_INIT (R145). -/
def execDecInit (s : State) : Host.Outcome State Fault Refusal :=
  .next ((s.setRcd s.rcd.cleared).setDec { s.dec with rdPtr := 0, didx := 0, state := .getLength })

/-- op_GET_LENGTH (R146). -/
def execDecGetLength (s : State) : Host.Outcome State Fault Refusal :=
  withField 1 s fun bs =>
    let s1 := s.setRcd { s.rcd with length := BitVec.ofNat 8 (be bs) }
    .next (goto .getAddress (advance 2 (accumulate bs s1)))

/-- op_GET_ADDRESS (R147). -/
def execDecGetAddress (s : State) : Host.Outcome State Fault Refusal :=
  withField 2 s fun bs =>
    let s1 := s.setRcd { s.rcd with address := BitVec.ofNat 16 (be bs) }
    .next (goto .getType (advance 4 (accumulate bs s1)))

/-- op_GET_TYPE (R148): its writes stand even where the branch raises ParseError. -/
def execDecGetType (s : State) : Host.Outcome State Fault Refusal :=
  withField 1 s fun bs =>
    let t := BitVec.ofNat 8 (be bs)
    let s1 := s.setRcd { s.rcd with type := t }
    .next (branchOnType t (advance 2 (accumulate bs s1)))

/-- op_GET_DATA (R155). `PAY` is written only below MAX_DATA_BYTES (R14, R52): there is no cell to write otherwise. -/
def execDecGetData (s : State) : Host.Outcome State Fault Refusal :=
  withField 1 s fun bs =>
    let k := s.dec.didx
    if k < s.cfg.maxDataBytes then
      let s1 := s.setRcd { s.rcd with pay := s.rcd.pay.write payUnlisted k (BitVec.ofNat 8 (be bs)) }
      let s2 := advance 2 (accumulate bs s1)
      let s3 := s2.setDec { s2.dec with didx := k + 1 }
      .next (goto (if k + 1 = s.rcd.length.toNat then .getChecksum else .getData) s3)
    else .fault (.payloadRange k)

/-- op_GET_EXT (R157): the field's width and destination follow `rec_type`. -/
def execDecGetExt (s : State) : Host.Outcome State Fault Refusal := extField s.rcd.type s

/-- op_GET_CHECKSUM (R162): the running sum is kept. -/
def execDecGetChecksum (s : State) : Host.Outcome State Fault Refusal :=
  withField 1 s fun bs =>
    let ok := checksumMatches s.rcd.checksum (BitVec.ofNat 8 (be bs))
    let s1 := (advance 2 s).setRcd { s.rcd with valid := ok }
    .next (finish (if ok then .successful else .checksumError) s1)

/-- op_ERROR (R156). -/
def execDecError (s : State) : Host.Outcome State Fault Refusal := .next (finish .parseError s)

/-- op_DONE (R163): no write. -/
def execDecDone (s : State) : Host.Outcome State Fault Refusal := .next s

end Sys2Proof.Machine
end

