-- ==== Sys2Proof/Machine/Dispatch.lean ====
section
/-! DEFINITION. One arm per row of the opcode table. -/

namespace Sys2Proof.Machine

def exec (i : Instr) (s : State) : Host.Outcome State Fault Refusal :=
  match i with
  | .nop => Sys2Proof.Machine.execNop s
  | .feed b => Sys2Proof.Machine.execFeed b s
  | .decode => Sys2Proof.Machine.execDecode s
  | .init => Sys2Proof.Machine.execInit s
  | .laStart => Sys2Proof.Machine.execLaStart s
  | .laDiscard b => Sys2Proof.Machine.execLaDiscard b s
  | .laTerm => Sys2Proof.Machine.execLaTerm s
  | .laStore b => Sys2Proof.Machine.execLaStore b s
  | .laOverflow b => Sys2Proof.Machine.execLaOverflow b s
  | .decInit => Sys2Proof.Machine.execDecInit s
  | .decGetLength => Sys2Proof.Machine.execDecGetLength s
  | .decGetAddress => Sys2Proof.Machine.execDecGetAddress s
  | .decGetType => Sys2Proof.Machine.execDecGetType s
  | .decGetData => Sys2Proof.Machine.execDecGetData s
  | .decGetExt => Sys2Proof.Machine.execDecGetExt s
  | .decGetChecksum => Sys2Proof.Machine.execDecGetChecksum s
  | .decError => Sys2Proof.Machine.execDecError s
  | .decDone => Sys2Proof.Machine.execDecDone s
  | .recData => Sys2Proof.Machine.execRecData s
  | .recEof => Sys2Proof.Machine.execRecEof s
  | .recExtSegmentAddress => Sys2Proof.Machine.execRecExtSegmentAddress s
  | .recStartSegmentAddress => Sys2Proof.Machine.execRecStartSegmentAddress s
  | .recExtLinearAddress => Sys2Proof.Machine.execRecExtLinearAddress s
  | .recStartLinearAddress => Sys2Proof.Machine.execRecStartLinearAddress s
  | .recUnknown06 tt => Sys2Proof.Machine.execRecUnknown06 tt s
  | .recUnknown08 tt => Sys2Proof.Machine.execRecUnknown08 tt s
  | .recUnknown10 tt => Sys2Proof.Machine.execRecUnknown10 tt s
  | .recUnknown20 tt => Sys2Proof.Machine.execRecUnknown20 tt s
  | .recUnknown40 tt => Sys2Proof.Machine.execRecUnknown40 tt s
  | .recUnknown80 tt => Sys2Proof.Machine.execRecUnknown80 tt s

end Sys2Proof.Machine
end

