-- ==== Sys2Proof/Machine/Cycle.lean ====
section
/-! DEFINITION. One clock cycle: how a command and a decoder step compose (43_commands.md R180, 20_memory.md R56, R140, R231). -/

namespace Sys2Proof.Machine

/-- What a cycle carries when the host drives nothing: no reset, and NOP (R70, R84). -/
def idleInput : CycleInput := { rst := false, cmd := 0x000#10 }

/-- The inputs of the next cycle. -/
def nextInput (s : State) : CycleInput :=
  match s.inputs with
  | [] => idleInput
  | x :: _ => x

/-- The state with the inputs of the next cycle sampled. -/
def sampled (s : State) : State := s.setInputs s.inputs.tail

/-- The writes of a decoder step and of a command, landing together (R56). Both were computed from the state at the start
of the cycle; the step owns the decoder and the record, the command the Line Assembler (R180). -/
def joinCycle (step cmd : Host.Outcome State Fault Refusal) : Host.Outcome State Fault Refusal :=
  match step, cmd with
  | .next d, .next c => .next ((c.setDec d.dec).setRcd d.rcd)
  | .fault f, _ => .fault f
  | .refused r, _ => .refused r
  | .next _, .fault f => .fault f
  | .next _, .refused r => .refused r

/-- A decoder step runs beside the command: a pass is running, and the command is not INIT (R140, R180). -/
def stepsDecoder (i : Instr) (s : State) : Bool := decide (s.dec.status = .busy) && decide (i ≠ .init)

/-- The cycle of a command with `rst = 0` (R180). -/
def commandCycle (i : Instr) (s : State) : Host.Outcome State Fault Refusal :=
  if stepsDecoder i s then joinCycle (exec (decStateInstr s.dec.state) s) (exec i s) else exec i s

/-- `CYCLE(s, rst, cmd)` (R180): reset overrides everything (R203, R231). -/
def cycle (x : CycleInput) (s : State) : Host.Outcome State Fault Refusal :=
  if x.rst then .next (applyReset s) else commandCycle (decodeCommand x.cmd) s

end Sys2Proof.Machine
end

