-- ==== Sys2Proof/Machine/Fetch.lean ====
section
/-! DEFINITION. Where each format of the opcode table is fetched from, and how a code is put there: the command port
(30_encoding.md R70), the byte of a FEED with the Line Assembler's own context (R80), `dec_state` with a pass running
(R81, R140), and the type field of the line that GET_TYPE reads (R75, R148). notes/assumptions/3.md. -/

namespace Sys2Proof.Machine

/-- Drive one command word in the next cycle. -/
def drive (w : CmdWord) (s : State) : State := s.setInputs ({ rst := false, cmd := w } :: s.inputs)

/-- The upper-case hex character of a nibble (R79). -/
def hexChar (n : Nat) : Byte := if n < 10 then BitVec.ofNat 8 (0x30 + n) else BitVec.ofNat 8 (0x37 + n)

/-- The Line Assembler in the context that classifies a byte (R80). -/
def inContext (cap : Nat) (active full : Bool) (l : LineAsm) : LineAsm :=
  if active then { l with active := true, lineLen := 0, wrPtr := if full then cap else l.wrPtr }
  else { l with active := false, wrPtr := 0 }

/-- A running pass that stands in `k`. GET_EXT needs the type of an address record: 02 is put there if it has none. -/
def atDecState (k : DecState) (s : State) : State :=
  let s1 := s.setDec { s.dec with state := k, status := .busy }
  if k = .getExt ∧ s.cfg.extBytes s.rcd.type = none then s1.setRcd { s1.rcd with type := 0x02#8 } else s1

/-- A running pass that stands in GET_TYPE before a completed line of two characters, the type byte in hex. -/
def atTypeField (tt : Byte) (s : State) : State :=
  let lb := (s.la.lb.write lineUnlisted 0 (hexChar (tt.toNat / 16))).write lineUnlisted 1 (hexChar (tt.toNat % 16))
  (s.setLa { s.la with active := false, wrPtr := 0, lb := lb, lineLen := 2 }).setDec
    { s.dec with state := .getType, status := .busy, rdPtr := 0 }

/-- Put a code where the block fetches its format from, so that the next cycle decodes it and runs it. -/
def placeCode (c : CodeWord) (s : State) : State :=
  match c with
  | .cmd w => drive w s
  | .laByte active full b => drive (cmdWord 1#2 b) (s.setLa (inContext s.cfg.lineCap active full s.la))
  | .decState code =>
    match decStateOfCode code with
    | some k => drive idleInput.cmd (atDecState k s)
    | none => s
  | .recType tt => drive idleInput.cmd (atTypeField tt s)

end Sys2Proof.Machine
end

