-- ==== Sys2Proof/Machine/Step.lean ====
section
/-! DEFINITION. The step function: one clock cycle on the inputs the host drives. -/

namespace Sys2Proof.Machine

/-- One step is one clock cycle: the next inputs are sampled, and the cycle runs on the state as it was (R180, R61). -/
def step (s : State) : Host.Outcome State Fault Refusal := cycle (nextInput s) (sampled s)

/-- `s` with a bare word of the opcode table put where the next cycle fetches it. -/
def State.withFetchWord (s : State) (nbits w : Nat) : State := placeCode (tableCodeWord nbits w) s

end Sys2Proof.Machine
end

