-- ==== Sys2Proof/Machine/Ports.lean ====
section
/-! DEFINITION. The output ports (10_state.md R41): every output is the register's current value. `LB`, `wr_ptr`, `rd_ptr`
and `didx` have no port (R38). Reading a port is a function of the state, so it changes nothing (R58). -/

namespace Sys2Proof.Machine

/-- The outputs of R41; `line_len` has PTR_W bits, and `rec_data` is the MAX_DATA_BYTES cells of `PAY`. -/
structure Ports where
  feedStatus : BitVec 2
  decStatus : BitVec 3
  decState : BitVec 4
  laActive : BitVec 1
  lineLen : Nat
  recLength : BitVec 8
  recAddress : BitVec 16
  recType : BitVec 8
  recOffset : BitVec 32
  recStart : BitVec 32
  recChecksum : BitVec 8
  recValid : BitVec 1
  recData : List Byte
deriving DecidableEq, Repr

/-- The cells of `PAY` in index order, as `rec_data` shows them. -/
def recData (s : State) : List Byte := (List.range s.cfg.maxDataBytes).filterMap s.payByte

/-- The ports of a state (R41). -/
def State.ports (s : State) : Ports :=
  { feedStatus := s.la.feedStatus.code
    decStatus := s.dec.status.code
    decState := s.dec.state.code
    laActive := BitVec.ofBool s.la.active
    lineLen := s.la.lineLen
    recLength := s.rcd.length
    recAddress := s.rcd.address
    recType := s.rcd.type
    recOffset := s.rcd.offset
    recStart := s.rcd.start
    recChecksum := s.rcd.checksum
    recValid := BitVec.ofBool s.rcd.valid
    recData := recData s }

end Sys2Proof.Machine
end

