-- ==== Sys2Proof/Machine/Trace.lean ====
section
/-! DEFINITION. The trace syntax of 30_encoding.md (R83 to R88), what a trace does to the block (R251), and the document's
three entry points as traces (00_scope.md R19, 43_commands.md R186). -/

namespace Sys2Proof.Machine

/-- A line of a trace (R83, R85 to R88). -/
inductive TraceLine where
  | nop
  | feed (b : Byte)
  | decode
  | init
  | feedline (text : List Byte)
  | feedstr (text : List Byte)
  | waitdec
  | idle (n : Nat)
deriving DecidableEq, Repr

/-- The word of a command line (R84). -/
def feedWord (b : Byte) : CmdWord := cmdWord 1#2 b

/-- The words NOP, DECODE and INIT (R84). -/
def nopWord : CmdWord := 0x000#10

/-- `DECODE` = 0x200 (R84). -/
def decodeWord : CmdWord := 0x200#10

/-- `INIT` = 0x300 (R84). -/
def initWord : CmdWord := 0x300#10

/-- The words a line expands to; `none` for WAITDEC, whose expansion follows the state (R84 to R88). -/
def TraceLine.words : TraceLine → Option (List CmdWord)
  | .nop => some [nopWord]
  | .feed b => some [feedWord b]
  | .decode => some [decodeWord]
  | .init => some [initWord]
  | .feedline text => some (feedWord startChar :: (text.map feedWord ++ [feedWord termChar]))
  | .feedstr text => some (text.map feedWord)
  | .waitdec => none
  | .idle n => some (List.replicate n nopWord)

/-- Cycles with `rst = 0`, one per word (R251). -/
def runWords : List CmdWord → State → Host.Outcome State Fault Refusal
  | [], s => .next s
  | w :: ws, s =>
    match cycle { rst := false, cmd := w } s with
    | .next t => runWords ws t
    | .fault f => .fault f
    | .refused r => .refused r

/-- WAITDEC: NOP cycles for as long as `dec_status = DEC_BUSY` at the start of the cycle, at most `fuel` of them (R86). -/
def waitDec : Nat → State → Host.Outcome State Fault Refusal
  | 0, s => .next s
  | n + 1, s =>
    if s.dec.status = .busy then
      match cycle { rst := false, cmd := nopWord } s with
      | .next t => waitDec n t
      | .fault f => .fault f
      | .refused r => .refused r
    else .next s

/-- The longest pass: `MAX_DATA_BYTES + 6` steps (R250). -/
def Config.longestPass (c : Config) : Nat := c.maxDataBytes + 6

/-- One line of a trace. A pass ends within the longest pass, so that many NOPs are all WAITDEC can need (R86, R250). -/
def runLine (l : TraceLine) (s : State) : Host.Outcome State Fault Refusal :=
  match l.words with
  | some ws => runWords ws s
  | none => waitDec (Config.longestPass s.cfg) s

/-- A whole trace, line by line (R83). -/
def runTrace : List TraceLine → State → Host.Outcome State Fault Refusal
  | [], s => .next s
  | l :: ls, s =>
    match runLine l s with
    | .next t => runTrace ls t
    | .fault f => .fault f
    | .refused r => .refused r

/-- A run is quiescent at its end when no pass is in flight (R251). -/
def quiescent (s : State) : Bool := decide (s.dec.status ≠ .busy)

/-- `Init()` (R19). -/
def hostInit (s : State) : Host.Outcome State Fault Refusal := runTrace [.init] s

/-- `Feed(byte)`; its result is `feed_status` afterwards (R19). -/
def hostFeed (b : Byte) (s : State) : Host.Outcome State Fault Refusal := runTrace [.feed b] s

/-- `Decode(outRecord)`; its results are `dec_status` and the record registers afterwards (R19). -/
def hostDecode (s : State) : Host.Outcome State Fault Refusal := runTrace [.decode, .waitdec] s

/-! ### The text of a trace line -/

/-- Blanks and tabs at the front dropped. -/
def skipBlanks : List Char → List Char
  | [] => []
  | c :: cs => if c = ' ' ∨ c = '\t' then skipBlanks cs else c :: cs

/-- Nothing is left, or a comment (R83). -/
def lineEnds (cs : List Char) : Bool :=
  match skipBlanks cs with
  | [] => true
  | c :: _ => decide (c = ';')

/-- The byte of a character: its ASCII code (R16). -/
def charByte (c : Char) : Option Byte := if c.toNat < 128 then some (BitVec.ofNat 8 c.toNat) else none

/-- The rest after a keyword, if the text begins with it and the keyword ends there. -/
def afterKeyword : List Char → List Char → Option (List Char)
  | [], [] => some []
  | [], c :: cs => if c = ' ' ∨ c = '\t' ∨ c = ';' then some (c :: cs) else none
  | _ :: _, [] => none
  | k :: ks, c :: cs => if k = c then afterKeyword ks cs else none

/-- The two hex digits of `0xHH` (R83). -/
def hexLiteral (h l : Char) : Option Byte :=
  match charByte h, charByte l with
  | some a, some b => pairval a b
  | _, _ => none

/-- `<byte>`: `0xHH`, a quoted character, or one of the keywords CR and LF (R83). -/
def parseByte (cs : List Char) : Option Byte :=
  match cs with
  | '0' :: 'x' :: h :: l :: r => if lineEnds r then hexLiteral h l else none
  | '\'' :: c :: '\'' :: r => if lineEnds r then charByte c else none
  | 'C' :: 'R' :: r => if lineEnds r then some termChar else none
  | 'L' :: 'F' :: r => if lineEnds r then some lineFeed else none
  | _ => none

/-- The characters up to the closing double quote; only blanks or a comment may follow it. -/
def parseTextTail : List Char → Option (List Byte)
  | [] => none
  | c :: cs =>
    if c.toNat = 0x22 then (if lineEnds cs then some [] else none)
    else
      match charByte c, parseTextTail cs with
      | some b, some bs => some (b :: bs)
      | _, _ => none

/-- `"<text>"` (R85, R87). -/
def parseText : List Char → Option (List Byte)
  | [] => none
  | c :: cs => if c.toNat = 0x22 then parseTextTail cs else none

/-- The digits of a decimal number, after `acc` (R88). -/
def parseDigits : Nat → List Char → Option Nat
  | acc, [] => some acc
  | acc, c :: cs =>
    if 0x30 ≤ c.toNat ∧ c.toNat ≤ 0x39 then parseDigits (acc * 10 + (c.toNat - 0x30)) cs
    else if lineEnds (c :: cs) then some acc
    else none

/-- The number of IDLE: at least one digit (R88). -/
def parseNumber : List Char → Option Nat
  | [] => none
  | c :: cs => if 0x30 ≤ c.toNat ∧ c.toNat ≤ 0x39 then parseDigits 0 (c :: cs) else none

/-- A keyword line without operand. -/
def bareLine (k : List Char) (l : TraceLine) (cs : List Char) : Option TraceLine :=
  match afterKeyword k cs with
  | some r => if lineEnds r then some l else none
  | none => none

/-- A keyword line with an operand. -/
def operandLine (k : List Char) {α : Type} (p : List Char → Option α) (f : α → TraceLine) (cs : List Char) :
    Option TraceLine :=
  match afterKeyword k cs with
  | some r => (p (skipBlanks r)).map f
  | none => none

/-- One line of the trace syntax, as characters (R83, R85 to R88); `none` where it is no line of it. A semicolon inside
quotes is a character, not a comment (DESIGN CHOICE, notes/assumptions/8.md). -/
def parseLine (text : List Char) : Option TraceLine :=
  let cs := skipBlanks text
  (bareLine ['N', 'O', 'P'] .nop cs)
    <|> (operandLine ['F', 'E', 'E', 'D'] parseByte .feed cs)
    <|> (bareLine ['D', 'E', 'C', 'O', 'D', 'E'] .decode cs)
    <|> (bareLine ['I', 'N', 'I', 'T'] .init cs)
    <|> (operandLine ['F', 'E', 'E', 'D', 'L', 'I', 'N', 'E'] parseText .feedline cs)
    <|> (operandLine ['F', 'E', 'E', 'D', 'S', 'T', 'R'] parseText .feedstr cs)
    <|> (bareLine ['W', 'A', 'I', 'T', 'D', 'E', 'C'] .waitdec cs)
    <|> (operandLine ['I', 'D', 'L', 'E'] parseNumber .idle cs)

end Sys2Proof.Machine
end

