-- ==== Sys2Proof/Safety.lean ====
section
/-! DEFINITION. The terms the claims use: the invariants of 10_state.md R43 and R44, the text of a completed line, and the
whole-line reading of a record (42_record_decoder.md R166). -/

namespace Sys2Proof.Machine

/-- What R43 (1, 2, 6) and R44 say of the Line Assembler, and that `LB` is canonical. The cells below `line_len` of a
completed line, and below `wr_ptr` of a line being received, have been written. -/
structure LineInv (cfg : Config) (l : LineAsm) : Prop where
  wrPtr_le : l.wrPtr ≤ cfg.lineCap
  wrPtr_inactive : l.active = false → l.wrPtr = 0
  lineLen_le : l.lineLen ≤ cfg.lineCap
  lineLen_inactive : l.lineLen ≠ 0 → l.active = false
  line_written : ∀ i, i < l.lineLen → (l.lb.read lineUnlisted i).isSome
  partial_written : ∀ i, i < l.wrPtr → (l.lb.read lineUnlisted i).isSome
  lb_wf : l.lb.wf lineUnlisted cfg.lineCap = true

/-- The status a decoder state goes with (R43, 4). -/
def statusFits (d : Decoder) : Prop :=
  match d.status with
  | .idle => d.state = .init
  | .busy => d.state ≠ .done
  | .successful => d.state = .done
  | .checksumError => d.state = .done
  | .parseError => d.state = .done
  | .invalidDigit => d.state = .done

/-- The record's validity flag goes with the status (R36): set after DEC_SUCCESSFUL, clear after an error, and clear in a
pass from its INIT step on. -/
def validFits (d : Decoder) (r : Record) : Prop :=
  match d.status with
  | .idle => True
  | .busy => d.state ≠ .init → r.valid = false
  | .successful => r.valid = true
  | .checksumError => r.valid = false
  | .parseError => r.valid = false
  | .invalidDigit => r.valid = false

/-- What R43 (4, 5, 6) says of the decoder and the record, that `rec_type` names an address record in GET_EXT (R157), and
that `PAY` is canonical. -/
structure DecInv (cfg : Config) (d : Decoder) (r : Record) : Prop where
  rdPtr_le : d.rdPtr ≤ cfg.lineCap
  didx_le : d.didx ≤ cfg.maxDataBytes
  status_fits : statusFits d
  valid_fits : validFits d r
  header_didx : d.state = .getLength ∨ d.state = .getAddress ∨ d.state = .getType → d.didx = 0
  data_bounds : d.state = .getData →
    1 ≤ r.length.toNat ∧ r.length.toNat ≤ cfg.maxDataBytes ∧ r.type = 0x00#8 ∧ d.didx < r.length.toNat
  ext_type : d.state = .getExt → (cfg.extBytes r.type).isSome
  pay_wf : r.pay.wf payUnlisted cfg.maxDataBytes = true

/-- The invariant of the block (R43, R44). -/
structure Inv (s : State) : Prop where
  line : LineInv s.cfg s.la
  decoder : DecInv s.cfg s.dec s.rcd

/-- The characters of the last completed line, `LB[0 .. line_len-1]` (R23, R53). -/
def lineText (s : State) : List Byte := (List.range s.la.lineLen).filterMap s.lineByte

/-- `W` of R166: the characters a record of type `t` with length byte `l` needs; `none` where GET_TYPE raises
ParseError (R149, R152). -/
def charsNeeded (cfg : Config) (l t : Byte) : Option Nat :=
  if t = 0x00#8 then (if l.toNat ≤ cfg.maxDataBytes then some (10 + 2 * l.toNat) else none)
  else if t = 0x01#8 then some 10
  else (cfg.extBytes t).map (fun n => 10 + 2 * n)

/-- The bytes of the first `w` characters of a line; `none` if it is shorter or one of them is no hex digit. -/
def lineBytes (text : List Byte) (w : Nat) : Option (List Byte) :=
  if w ≤ text.length then pairs (text.take w) else none

/-- The bytes of the record a line holds, its checksum among them, where every field is there and its type and length
are accepted (R166); the checksum is not compared. -/
def recordBytes (cfg : Config) (text : List Byte) : Option (List Byte) :=
  match lineBytes text 8 with
  | some [l, _, _, t] =>
    match charsNeeded cfg l t with
    | some w => lineBytes text w
    | none => none
  | _ => none

/-- The checksum byte equals `neg8` of the sum of the bytes before it (R127, R166). -/
def checksumHolds (bs : List Byte) : Bool := decide (bs.getLast? = some (neg8 (sum8 bs.dropLast)))

/-- The address-record field of a record's bytes (R75, R54). -/
def extValue (bs : List Byte) : BitVec 32 := BitVec.ofNat 32 (be (bs.drop 4).dropLast)

/-- The record registers hold what the bytes `bs` of a whole record say (R166), `PAY` apart. -/
def RegistersHold (bs : List Byte) (r : Record) : Prop :=
  ∃ l ah al t rest, bs = l :: ah :: al :: t :: rest ∧
    r.length = l ∧ r.address = ah ++ al ∧ r.type = t ∧
    r.checksum = sum8 bs.dropLast ∧
    r.offset = (if t = 0x02#8 ∨ t = 0x04#8 then extValue bs else 0#32) ∧
    r.start = (if t = 0x03#8 ∨ t = 0x05#8 then extValue bs else 0#32)

/-- The payload store holds the payload of a Data record's bytes, and no other cell changed (R37, R166). -/
def PayloadHolds (bs : List Byte) (s t : State) : Prop :=
  ∀ i, t.payByte i =
    (if bs[3]? = some 0x00#8 ∧ i < ((bs.drop 4).dropLast).length then bs[4 + i]? else s.payByte i)

/-- The `2n` characters `cs` of a field stand at the read cursor, inside the completed line (R142, R143). -/
def FieldChars (n : Nat) (s : State) (cs : List Byte) : Prop :=
  s.dec.rdPtr + 2 * n ≤ s.la.lineLen ∧ cs.length = 2 * n ∧
    ∀ j, j < 2 * n → s.lineByte (s.dec.rdPtr + j) = cs[j]?

/-- The bytes `bs` of a field stand at the read cursor. -/
def FieldBytes (n : Nat) (s : State) (bs : List Byte) : Prop := ∃ cs, FieldChars n s cs ∧ pairs cs = some bs

/-- The number of bytes a field step reads (R57, R142, R157); `none` for a state that reads no field. -/
def fieldWidth (s : State) : DecState → Option Nat
  | .init => none
  | .getLength => some 1
  | .getAddress => some 2
  | .getType => some 1
  | .getData => some 1
  | .getExt => s.cfg.extBytes s.rcd.type
  | .getChecksum => some 1
  | .error => none
  | .done => none

/-- How a field step `i` of `n` bytes fails (R142 to R144): too few characters raise ParseError, whatever they are; else a
character that is no hex digit finishes with DEC_INVALID_DIGIT. Neither writes anything else. -/
def FailsAsFieldStep (n : Nat) (i : Instr) (s : State) : Prop :=
  (s.la.lineLen < s.dec.rdPtr + 2 * n → exec i s = .next { s with dec := { s.dec with state := .error } }) ∧
  (∀ cs, FieldChars n s cs → (∃ c ∈ cs, hexval c = none) →
    exec i s = .next { s with dec := { s.dec with status := .invalidDigit, state := .done } })

/-- How a field step `i` of `n` bytes stops (notes/assumptions/6.md): the bound check holds, and the first character of the
field that the model can not read is the one at `rd_ptr + j`, a cell the buffer does not have or nothing has written. -/
def StopsOnUnreadableCell (n : Nat) (i : Instr) (s : State) : Prop :=
  ∀ j, s.dec.rdPtr + 2 * n ≤ s.la.lineLen → j < 2 * n →
    (∀ k, k < j → (s.lineByte (s.dec.rdPtr + k)).isSome) → s.lineByte (s.dec.rdPtr + j) = none →
    exec i s = .fault (if s.dec.rdPtr + j < s.cfg.lineCap then .lineBufferUnwritten (s.dec.rdPtr + j)
      else .lineBufferRange (s.dec.rdPtr + j))

/-- The decoder steps of a pass over a whole record with the bytes `bs` (R165). -/
def passSteps (bs : List Byte) : Nat :=
  if bs[3]? = some 0x00#8 ∨ bs[3]? = some 0x01#8 then bs.length else 6

/-- No cycle of a run carries INIT or reset (R251): the inputs leave a running pass running. -/
def leavesPass (x : CycleInput) : Bool := !x.rst && decide (decodeCommand x.cmd ≠ .init)

/-- Cycles on given inputs. -/
def runInputs : List CycleInput → State → Host.Outcome State Fault Refusal
  | [], s => .next s
  | x :: xs, s =>
    match cycle x s with
    | .next t => runInputs xs t
    | .fault f => .fault f
    | .refused r => .refused r

end Sys2Proof.Machine
end

