-- ==== Sys2Proof/Certificates/Slice0/Obligations.lean ====
section
/-! DEFINITION. The statements for the provers: what each command, Line Assembler path, decoder state and record type does,
the conversion and checksum functions, one clock cycle, the invariants, and the whole line and whole pass results. -/

open Sys2Proof Sys2Proof.Machine

/-! ### Commands -/

/-- R184: NOP, whatever its data bits, has no write; a running pass takes its step in a NOP cycle, and the cycle is that
step alone. -/
def Obligations.NopWritesNothing : Prop :=
  (∀ d : Byte, decodeCommand (0#2 ++ d) = .nop) ∧ (∀ s : State, exec .nop s = .next s) ∧
  (∀ s t : State, s.dec.status = .busy → exec (decStateInstr s.dec.state) s = .next t → commandCycle .nop s = .next t)

/-- R80, R100: a FEED does what the path that R80 selects does, for every byte and every legal `wr_ptr`. -/
def Obligations.FeedRunsTheSelectedPath : Prop :=
  ∀ (s : State) (b : Byte), s.la.wrPtr ≤ s.cfg.lineCap →
    exec (.feed b) s = exec (classifyByte s.la.active (decide (s.la.wrPtr = s.cfg.lineCap)) b) s

/-- R100: a FEED always completes and writes Line Assembler state only; of `LB` only the cell at `wr_ptr`. -/
def Obligations.FeedWritesOnlyLineAssembler : Prop :=
  ∀ (s : State) (b : Byte), ∃ t, exec (.feed b) s = .next t ∧
    t.dec = s.dec ∧ t.rcd = s.rcd ∧ t.inputs = s.inputs ∧ t.cfg = s.cfg ∧
    (∀ i, i ≠ s.la.wrPtr → t.lineByte i = s.lineByte i) ∧ (∀ i, t.payByte i = s.payByte i)

/-- R101: a start marker while inactive, as a FEED and as the path it selects. -/
def Obligations.StartMarkerStartsLine : Prop :=
  ∀ s : State, s.la.active = false →
    let t := { s with la := { s.la with active := true, wrPtr := 0, lineLen := 0, feedStatus := .busy } }
    exec (.feed 0x3A#8) s = .next t ∧ exec .laStart s = .next t

/-- R105: any other byte while inactive changes `feed_status` only. -/
def Obligations.NoiseIsDiscarded : Prop :=
  ∀ (s : State) (b : Byte), s.la.active = false → b ≠ 0x3A#8 →
    let t := { s with la := { s.la with feedStatus := .busy } }
    exec (.feed b) s = .next t ∧ exec (.laDiscard b) s = .next t

/-- R102: a carriage return while active completes the line, at every `wr_ptr`, a full buffer included. -/
def Obligations.TerminatorCompletesLine : Prop :=
  ∀ s : State, s.la.active = true →
    let t := { s with la := { s.la with lineLen := s.la.wrPtr, active := false, wrPtr := 0, feedStatus := .lineComplete } }
    exec (.feed 0x0D#8) s = .next t ∧ exec .laTerm s = .next t

/-- R103: any other byte while active is stored at `wr_ptr` while the buffer has room, and nothing else of `LB` changes. -/
def Obligations.CharacterIsStored : Prop :=
  ∀ (s : State) (b : Byte), s.la.active = true → b ≠ 0x0D#8 → s.la.wrPtr < s.cfg.lineCap →
    ∃ t, exec (.feed b) s = .next t ∧ exec (.laStore b) s = .next t ∧
      t.lineByte s.la.wrPtr = some b ∧ (∀ i, i ≠ s.la.wrPtr → t.lineByte i = s.lineByte i) ∧
      t.la.wrPtr = s.la.wrPtr + 1 ∧ t.la.feedStatus = .busy ∧
      t.la.active = s.la.active ∧ t.la.lineLen = s.la.lineLen ∧
      t.dec = s.dec ∧ t.rcd = s.rcd ∧ t.inputs = s.inputs ∧ t.cfg = s.cfg

/-- R104: any other byte while active with the buffer full overflows: the line is dropped, and `LB` is not written. -/
def Obligations.FullBufferOverflows : Prop :=
  ∀ (s : State) (b : Byte), s.la.active = true → b ≠ 0x0D#8 → s.la.wrPtr = s.cfg.lineCap →
    let t := { s with la := { s.la with wrPtr := 0, active := false, lineLen := 0, feedStatus := .overflow } }
    exec (.feed b) s = .next t ∧ exec (.laOverflow b) s = .next t

/-- The model's choice of notes/assumptions/4.md: a Line Assembler row, once selected, runs in every state, with the
effect of its rule, but for LA_STORE with no cell left, which stops. -/
def Obligations.PathsRunWhereverSelected : Prop :=
  ∀ (s : State) (b : Byte),
    exec .laStart s =
      .next { s with la := { s.la with active := true, wrPtr := 0, lineLen := 0, feedStatus := .busy } } ∧
    exec (.laDiscard b) s = .next { s with la := { s.la with feedStatus := .busy } } ∧
    exec .laTerm s =
      .next { s with la := { s.la with lineLen := s.la.wrPtr, active := false, wrPtr := 0, feedStatus := .lineComplete } } ∧
    exec (.laOverflow b) s =
      .next { s with la := { s.la with wrPtr := 0, active := false, lineLen := 0, feedStatus := .overflow } } ∧
    (s.la.wrPtr < s.cfg.lineCap → ∃ t, exec (.laStore b) s = .next t ∧ t.lineByte s.la.wrPtr = some b ∧
      (∀ i, i ≠ s.la.wrPtr → t.lineByte i = s.lineByte i) ∧
      t.la.wrPtr = s.la.wrPtr + 1 ∧ t.la.feedStatus = .busy ∧ t.la.active = s.la.active ∧
      t.la.lineLen = s.la.lineLen ∧ t.dec = s.dec ∧ t.rcd = s.rcd ∧ t.inputs = s.inputs ∧ t.cfg = s.cfg) ∧
    (s.cfg.lineCap ≤ s.la.wrPtr → exec (.laStore b) s = .fault (.lineBufferRange s.la.wrPtr))

/-- R182: DECODE, whatever its data bits, starts a pass, with any line; the pass's first step is op_INIT. While a pass runs
DECODE is ignored. -/
def Obligations.DecodeStartsPassUnlessBusy : Prop :=
  (∀ d : Byte, decodeCommand (2#2 ++ d) = .decode) ∧ decStateInstr .init = .decInit ∧
  ∀ s : State,
    (s.dec.status ≠ .busy → exec .decode s = .next { s with dec := { s.dec with state := .init, status := .busy } }) ∧
    (s.dec.status = .busy → exec .decode s = .next s)

/-- R183: INIT, whatever its data bits, sets both machines to their initial state, keeps `LB`, `rec_*` and `PAY`, and lets no
decoder step run in its cycle; repeating it changes nothing. -/
def Obligations.InitResetsBothMachines : Prop :=
  (∀ d : Byte, decodeCommand (3#2 ++ d) = .init) ∧ ∀ s : State,
    let t : State := { s with
      la := { s.la with active := false, wrPtr := 0, lineLen := 0, feedStatus := .busy }
      dec := { state := .init, status := .idle, rdPtr := 0, didx := 0 } }
    exec .init s = .next t ∧ commandCycle .init s = .next t ∧ exec .init t = .next t

/-! ### Decoder states -/

/-- R145: op_INIT zeroes every record register but `PAY`, and both cursors. -/
def Obligations.PassStartClearsRecord : Prop :=
  decode (.decState 0#4) = .ok .decInit ∧ ∀ s : State, exec .decInit s = .next { s with
    rcd := { length := 0#8, address := 0#16, type := 0#8, offset := 0#32, start := 0#32, checksum := 0#8,
             valid := false, pay := s.rcd.pay }
    dec := { s.dec with rdPtr := 0, didx := 0, state := .getLength } }

/-- R146: op_GET_LENGTH, its two errors included. -/
def Obligations.GetLengthStoresLength : Prop :=
  decode (.decState 1#4) = .ok .decGetLength ∧ ∀ s : State, FailsAsFieldStep 1 .decGetLength s ∧ ∀ b, FieldBytes 1 s [b] →
    exec .decGetLength s = .next { s with
      rcd := { s.rcd with length := b, checksum := s.rcd.checksum + b }
      dec := { s.dec with rdPtr := s.dec.rdPtr + 2, state := .getAddress } }

/-- R147: op_GET_ADDRESS, its two errors included; the first pair is the high byte. -/
def Obligations.GetAddressStoresAddress : Prop :=
  decode (.decState 2#4) = .ok .decGetAddress ∧ ∀ s : State, FailsAsFieldStep 2 .decGetAddress s ∧ ∀ hi lo : Byte, FieldBytes 2 s [hi, lo] →
    exec .decGetAddress s = .next { s with
      rcd := { s.rcd with address := hi ++ lo, checksum := s.rcd.checksum + hi + lo }
      dec := { s.dec with rdPtr := s.dec.rdPtr + 4, state := .getType } }

/-- R148 to R152: op_GET_TYPE stores the type, adds it to the checksum and moves the cursor, whatever the branch does; the
branch goes where R149 (Data), R150 (End Of File), R151 (address records) and R152 (any other type) say. -/
def Obligations.GetTypeStoresTypeAndBranches : Prop :=
  decode (.decState 3#4) = .ok .decGetType ∧ ∀ s : State, FailsAsFieldStep 1 .decGetType s ∧ ∀ t : Byte, FieldBytes 1 s [t] →
    exec .decGetType s = .next { s with
      rcd := { s.rcd with type := t, checksum := s.rcd.checksum + t }
      dec := { s.dec with
        rdPtr := s.dec.rdPtr + 2
        state :=
          if t = 0x00#8 then
            (if s.cfg.maxDataBytes < s.rcd.length.toNat then .error
             else if s.rcd.length = 0#8 then .getChecksum else .getData)
          else if t = 0x01#8 then .getChecksum
          else if t = 0x02#8 ∨ t = 0x03#8 ∨ t = 0x04#8 ∨ t = 0x05#8 then .getExt
          else .error } }

/-- GET_TYPE's branch is the record type's own row of the opcode table, run after GET_TYPE's writes; and GET_EXT is the
row that `rec_type` names. That the row of an address record stands for both is the model's reading
(notes/assumptions/5.md). -/
def Obligations.TypeSelectsItsRow : Prop :=
  (∀ (s : State) (t : Byte), FieldBytes 1 s [t] → s.dec.state = .getType →
    exec .decGetType s = exec (decodeRecType t) { s with
      rcd := { s.rcd with type := t, checksum := s.rcd.checksum + t }
      dec := { s.dec with rdPtr := s.dec.rdPtr + 2 } }) ∧
  (∀ s : State, s.dec.state = .getExt → (s.cfg.extBytes s.rcd.type).isSome →
    exec .decGetExt s = exec (decodeRecType s.rcd.type) s)

/-- R155: op_GET_DATA writes one payload byte at `didx`, and no other byte of either store. -/
def Obligations.GetDataStoresOneByte : Prop :=
  decode (.decState 4#4) = .ok .decGetData ∧ ∀ s : State, FailsAsFieldStep 1 .decGetData s ∧ ∀ b : Byte, FieldBytes 1 s [b] →
    s.dec.didx < s.cfg.maxDataBytes →
    ∃ u, exec .decGetData s = .next u ∧
      u.payByte s.dec.didx = some b ∧ (∀ i, i ≠ s.dec.didx → u.payByte i = s.payByte i) ∧
      u.rcd = { s.rcd with checksum := s.rcd.checksum + b, pay := u.rcd.pay } ∧
      u.dec = { s.dec with
        rdPtr := s.dec.rdPtr + 2
        didx := s.dec.didx + 1
        state := if s.dec.didx + 1 = s.rcd.length.toNat then .getChecksum else .getData } ∧
      u.la = s.la ∧ u.inputs = s.inputs ∧ u.cfg = s.cfg

/-- R157 to R161: op_GET_EXT reads `EXT_BYTES(rec_type)` bytes, zero-extends their value, and writes it to `rec_offset`
for 02 and 04, to `rec_start` for 03 and 05. -/
def Obligations.GetExtStoresAddressField : Prop :=
  decode (.decState 5#4) = .ok .decGetExt ∧ ∀ (s : State) (n : Nat), s.cfg.extBytes s.rcd.type = some n →
    FailsAsFieldStep n .decGetExt s ∧ ∀ bs, FieldBytes n s bs →
    exec .decGetExt s = .next { s with
      rcd := { s.rcd with
        offset := if s.rcd.type = 0x02#8 ∨ s.rcd.type = 0x04#8 then BitVec.ofNat 32 (be bs) else s.rcd.offset
        start := if s.rcd.type = 0x03#8 ∨ s.rcd.type = 0x05#8 then BitVec.ofNat 32 (be bs) else s.rcd.start
        checksum := s.rcd.checksum + sum8 bs }
      dec := { s.dec with rdPtr := s.dec.rdPtr + 2 * n, state := .getChecksum } }

/-- R162: op_GET_CHECKSUM compares the byte with `neg8` of the running sum, sets `rec_valid` and the terminal status
accordingly, and keeps the sum. -/
def Obligations.GetChecksumDecidesRecord : Prop :=
  decode (.decState 6#4) = .ok .decGetChecksum ∧ ∀ s : State, FailsAsFieldStep 1 .decGetChecksum s ∧ ∀ cc : Byte, FieldBytes 1 s [cc] →
    (cc = neg8 s.rcd.checksum →
      exec .decGetChecksum s = .next { s with
        rcd := { s.rcd with valid := true }
        dec := { s.dec with rdPtr := s.dec.rdPtr + 2, status := .successful, state := .done } }) ∧
    (cc ≠ neg8 s.rcd.checksum →
      exec .decGetChecksum s = .next { s with
        rcd := { s.rcd with valid := false }
        dec := { s.dec with rdPtr := s.dec.rdPtr + 2, status := .checksumError, state := .done } })

/-- R156: op_ERROR reports DEC_PARSE_ERROR and ends the pass; R163: op_DONE writes nothing. -/
def Obligations.ErrorReportsAndDoneRests : Prop :=
  decode (.decState 7#4) = .ok .decError ∧ decode (.decState 8#4) = .ok .decDone ∧ ∀ s : State,
    exec .decError s = .next { s with dec := { s.dec with status := .parseError, state := .done } } ∧
    exec .decDone s = .next s

/-- R142, R143, R144: every field step checks the bound first, then the digits of all its characters, and a failing check
writes nothing but `dec_state` and, for a bad digit, `dec_status`. -/
def Obligations.FieldStepsCheckBoundThenDigits : Prop :=
  ∀ (s : State) (k : DecState) (n : Nat), fieldWidth s k = some n → FailsAsFieldStep n (decStateInstr k) s

/-- Where the model stops (notes/assumptions/6.md, the model's choice). No cycle from a state with the invariant stops, and
no decoder step. Outside it, a field step stops at its first character that stands in no cell or in a cell that nothing has
written, an address record's row in GET_EXT too; GET_DATA stops past the payload store, and GET_EXT without the type of an
address record. LA_STORE, a path that R80 never selects with the buffer full, stops there. -/
def Obligations.StopsOnlyOutsideTheInvariant : Prop :=
  (∀ (s : State) (x : CycleInput) (f : Fault), Inv s →
    cycle x s ≠ .fault f ∧ exec (decStateInstr s.dec.state) s ≠ .fault f) ∧
  (∀ (s : State) (k : DecState) (n : Nat), fieldWidth s k = some n → StopsOnUnreadableCell n (decStateInstr k) s) ∧
  (∀ (s : State) (i : Instr) (t : Byte) (n : Nat),
    (i, t) ∈ [(Instr.recExtSegmentAddress, 0x02#8), (.recStartSegmentAddress, 0x03#8),
      (.recExtLinearAddress, 0x04#8), (.recStartLinearAddress, 0x05#8)] →
    s.dec.state = .getExt → s.cfg.extBytes t = some n → StopsOnUnreadableCell n i s) ∧
  (∀ (s : State) (b : Byte), FieldBytes 1 s [b] → s.cfg.maxDataBytes ≤ s.dec.didx →
    exec .decGetData s = .fault (.payloadRange s.dec.didx)) ∧
  (∀ s : State, s.cfg.extBytes s.rcd.type = none → exec .decGetExt s = .fault (.extTypeUndefined s.rcd.type)) ∧
  (∀ (s : State) (b : Byte), s.cfg.lineCap ≤ s.la.wrPtr → exec (.laStore b) s = .fault (.lineBufferRange s.la.wrPtr))

/-! ### Record types -/

/-- R149, R150, R152: the Data, End Of File and unknown type rows branch, and write nothing but `dec_state`. That such a row
is GET_TYPE's branch alone, in every state, is the model's reading (notes/assumptions/5.md): the payload of R76 is written
by GET_DATA, the `rec_type` of R77 by GET_TYPE. -/
def Obligations.RecordTypesBranch : Prop :=
  ∀ (s : State) (tt : Byte),
    exec .recData s = .next { s with dec := { s.dec with
      state := if s.cfg.maxDataBytes < s.rcd.length.toNat then .error
               else if s.rcd.length = 0#8 then .getChecksum else .getData } } ∧
    exec .recEof s = .next { s with dec := { s.dec with state := .getChecksum } } ∧
    (∀ i, i ∈ [Instr.recUnknown06 tt, .recUnknown08 tt, .recUnknown10 tt, .recUnknown20 tt, .recUnknown40 tt,
        .recUnknown80 tt] →
      exec i s = .next { s with dec := { s.dec with state := .error } })

/-- R151, R158 to R161: an address record's row branches to GET_EXT; in GET_EXT it reads its field and writes it to its
register. That one row stands for both events is the model's reading (notes/assumptions/5.md). -/
def Obligations.AddressRecordRows : Prop :=
  ∀ (s : State) (i : Instr) (t : Byte),
    (i, t) ∈ [(Instr.recExtSegmentAddress, 0x02#8), (.recStartSegmentAddress, 0x03#8),
      (.recExtLinearAddress, 0x04#8), (.recStartLinearAddress, 0x05#8)] →
    (s.dec.state ≠ .getExt → exec i s = .next { s with dec := { s.dec with state := .getExt } }) ∧
    (s.dec.state = .getExt → ∃ n, s.cfg.extBytes t = some n ∧
      FailsAsFieldStep n i s ∧ ∀ bs, FieldBytes n s bs → exec i s = .next { s with
        rcd := { s.rcd with
          offset := if t = 0x02#8 ∨ t = 0x04#8 then BitVec.ofNat 32 (be bs) else s.rcd.offset
          start := if t = 0x03#8 ∨ t = 0x05#8 then BitVec.ofNat 32 (be bs) else s.rcd.start
          checksum := s.rcd.checksum + sum8 bs }
        dec := { s.dec with rdPtr := s.dec.rdPtr + 2 * n, state := .getChecksum } })

/-! ### Hex digits and checksum -/

/-- R120: the whole table of `hexval`, INVALID included. -/
def Obligations.HexvalTable : Prop :=
  ∀ c : Byte,
    (0x30 ≤ c.toNat ∧ c.toNat ≤ 0x39 → hexval c = some (BitVec.ofNat 4 (c.toNat - 0x30))) ∧
    (0x41 ≤ c.toNat ∧ c.toNat ≤ 0x46 → hexval c = some (BitVec.ofNat 4 (c.toNat - 0x37))) ∧
    (0x61 ≤ c.toNat ∧ c.toNat ≤ 0x66 → hexval c = some (BitVec.ofNat 4 (c.toNat - 0x57))) ∧
    (¬(0x30 ≤ c.toNat ∧ c.toNat ≤ 0x39) ∧ ¬(0x41 ≤ c.toNat ∧ c.toNat ≤ 0x46) ∧
      ¬(0x61 ≤ c.toNat ∧ c.toNat ≤ 0x66) → hexval c = none)

/-- R121, R122: a pair is its two nibbles, the first one high, INVALID if either is; and a list of characters converts
pair by pair, INVALID if any character is no digit. -/
def Obligations.PairsConvertHighNibbleFirst : Prop :=
  (∀ (a b : Byte) (h l : BitVec 4), hexval a = some h → hexval b = some l → pairval a b = some (h ++ l)) ∧
  (∀ a b : Byte, hexval a = none ∨ hexval b = none → pairval a b = none) ∧
  (∀ cs : List Byte, cs.length % 2 = 0 →
    ((∃ c ∈ cs, hexval c = none) → pairs cs = none) ∧
    ((∀ c ∈ cs, hexval c ≠ none) → ∃ bs, pairs cs = some bs ∧ cs.length = 2 * bs.length ∧
      ∀ k, k < bs.length → ∃ a b, cs[2 * k]? = some a ∧ cs[2 * k + 1]? = some b ∧ pairval a b = bs[k]?))

/-- R123: `be` is most significant first, and fits in 8 bits per byte. -/
def Obligations.BytesAreMostSignificantFirst : Prop :=
  (∀ b : Byte, be [b] = b.toNat) ∧
  (∀ (bs : List Byte) (b : Byte), be (bs ++ [b]) = (be bs <<< 8) ||| b.toNat) ∧
  (∀ bs : List Byte, be bs < 2 ^ (8 * bs.length))

/-- R124, R125: `sum8` is the sum modulo 256, and `neg8` the negation modulo 256. -/
def Obligations.ChecksumArithmetic : Prop :=
  (∀ bs : List Byte, (sum8 bs).toNat = (bs.map BitVec.toNat).sum % 256) ∧
  (∀ x : Byte, (neg8 x).toNat = (256 - x.toNat) % 256)

/-- R127: a record is valid exactly when the checksum byte is `neg8` of the sum, that is when the sum of all its bytes,
checksum included, is 0 modulo 256. -/
def Obligations.ValidMeansBytesSumToZero : Prop :=
  ∀ (bs : List Byte) (cc : Byte),
    (cc = neg8 (sum8 bs) ↔ sum8 (bs ++ [cc]) = 0#8) ∧
    (checksumMatches (sum8 bs) cc = true ↔ cc = neg8 (sum8 bs))

/-- R128: flipping one bit of a correct checksum byte, written again in hex, makes GET_CHECKSUM report
DEC_CHECKSUM_ERROR with `rec_valid = 0`. -/
def Obligations.SingleBitCorruptionIsDetected : Prop :=
  (∀ (x cc : Byte) (k : Nat), k < 8 → cc = neg8 x → cc ^^^ (1#8 <<< k) ≠ neg8 x) ∧
  (∀ (s : State) (cc : Byte) (k : Nat), k < 8 → cc = neg8 s.rcd.checksum → FieldBytes 1 s [cc ^^^ (1#8 <<< k)] →
    ∃ t, exec .decGetChecksum s = .next t ∧ t.dec.status = .checksumError ∧ t.rcd.valid = false)

/-! ### Encoding -/

/-- Decoding the code of a well-formed instruction gives it back, with every operand at every value its row admits. -/
def Obligations.DecodeEncodeRoundTrip : Prop :=
  ∀ i : Instr, WellFormed i = true → decode (encode i) = .ok i

/-- What the decoder gives is well formed, and its own code decodes to it again. -/
def Obligations.DecodedInstructionsAreWellFormed : Prop :=
  ∀ (c : CodeWord) (i : Instr), decode c = .ok i → WellFormed i = true ∧ decode (encode i) = decode c

/-- R73, R82: the decoder is total: the one thing it rejects, by name, is a reserved `dec_state` code. -/
def Obligations.OnlyReservedStatesAreRejected : Prop :=
  ∀ (c : CodeWord) (e : DecodeError), decode c = .rejected e ↔
    ∃ k : BitVec 4, 9 ≤ k.toNat ∧ c = .decState k ∧ e = .reservedDecState k

/-- R71, R72: the operation code selects the command, FEED takes the data byte as it is, and the other three ignore it and
are written with it 0. -/
def Obligations.CommandWordDecodes : Prop :=
  (∀ d : Byte,
    decodeCommand (0#2 ++ d) = .nop ∧ decodeCommand (1#2 ++ d) = .feed d ∧
    decodeCommand (2#2 ++ d) = .decode ∧ decodeCommand (3#2 ++ d) = .init) ∧
  encode .nop = .cmd (0#2 ++ 0#8) ∧ encode .decode = .cmd (2#2 ++ 0#8) ∧ encode .init = .cmd (3#2 ++ 0#8)

/-- R84: the words of the trace syntax, and words of other rows, written out from the spec's tables. -/
def Obligations.WrittenWordsDecode : Prop :=
  encode .nop = .cmd 0x000#10 ∧ (∀ b : Byte, encode (.feed b) = .cmd (0x100#10 ||| b.setWidth 10)) ∧
  encode .decode = .cmd 0x200#10 ∧ encode .init = .cmd 0x300#10 ∧
  decode (.cmd 0x000#10) = .ok .nop ∧ decode (.cmd 0x13A#10) = .ok (.feed 0x3A#8) ∧
  decode (.cmd 0x10D#10) = .ok (.feed 0x0D#8) ∧ decode (.cmd 0x161#10) = .ok (.feed 0x61#8) ∧
  decode (.cmd 0x200#10) = .ok .decode ∧ decode (.cmd 0x300#10) = .ok .init ∧
  decode (.decState 4#4) = .ok .decGetData ∧ decode (.recType 0x04#8) = .ok .recExtLinearAddress ∧
  decode (.recType 0x3F#8) = .ok (.recUnknown20 0x3F#8)

/-! ### One clock cycle -/

/-- R180: a step samples the next inputs. With `rst = 1` it gives `RESET_STATE`, `LB` not written (R233). Else, with no pass running or with INIT,
it is `exec` of the instruction the word decodes to; with a pass running, the decoder step of `dec_state` runs beside the
command, both from the state at the start of the cycle, and the writes of both land: the step's on the decoder and the
record, the command's on the Line Assembler. That the inputs stand in a list of
State is the model's choice (notes/assumptions/1.md), and so is the last clause, that a cycle whose decoder step faults
faults as a whole (notes/assumptions/6.md). -/
def Obligations.StepRunsTheDecodedCommand : Prop :=
  ∀ (s : State) (x : CycleInput) (rest : List CycleInput), s.inputs = x :: rest →
    let i := decodeCommand x.cmd
    let s0 : State := { s with inputs := rest }
    (x.rst = true → step s = .next { State.resetWith s.cfg rest with la := { LineAsm.reset with lb := s.la.lb } }) ∧
    (x.rst = false → WellFormed i = true ∧
      (s.dec.status ≠ .busy ∨ i = .init → step s = exec i s0) ∧
      (s.dec.status = .busy → i ≠ .init →
        (∀ d c, exec (decStateInstr s.dec.state) s0 = .next d → exec i s0 = .next c →
          step s = .next { c with dec := d.dec, rcd := d.rcd }) ∧
        (∀ f, exec (decStateInstr s.dec.state) s0 = .fault f → step s = .fault f)))

/-- R70, R214: a cycle in which the host drives nothing is a NOP cycle (an empty list of inputs stands for it: the model's
choice, notes/assumptions/1.md), and with no pass running it changes nothing. -/
def Obligations.IdleCycleIsNop : Prop :=
  ∀ s : State, s.inputs = [] →
    step s = commandCycle .nop s ∧ (s.dec.status ≠ .busy → step s = .next s)

/-- R231: cycles with `rst = 1`, one or more of them, leave `RESET_STATE`, whatever the commands and the state, and do not
write `LB` (R233); the next cycle runs from there. -/
def Obligations.ResetCyclesGiveResetState : Prop :=
  ∀ (s : State) (ws : List CmdWord), ws ≠ [] →
    ∃ r, runInputs (ws.map fun w => { rst := true, cmd := w }) s = .next r ∧
      r.la = { LineAsm.reset with lb := s.la.lb } ∧ r.dec = Decoder.reset ∧ r.rcd = Record.reset ∧
      r.inputs = s.inputs ∧ r.cfg = s.cfg ∧
      ∀ x : CycleInput, runInputs ((ws.map fun w => { rst := true, cmd := w }) ++ [x]) s = cycle x r

/-- R230: the values of `RESET_STATE`. -/
def Obligations.ResetValues : Prop :=
  ∀ (c : Config) (ins : List CycleInput),
    let r := State.resetWith c ins
    r.la.active = false ∧ r.la.wrPtr = 0 ∧ r.la.lineLen = 0 ∧ r.la.feedStatus.code = 0#2 ∧
    r.dec.state.code = 0#4 ∧ r.dec.status.code = 0#3 ∧ r.dec.rdPtr = 0 ∧ r.dec.didx = 0 ∧
    r.rcd.length = 0#8 ∧ r.rcd.address = 0#16 ∧ r.rcd.type = 0#8 ∧ r.rcd.offset = 0#32 ∧ r.rcd.start = 0#32 ∧
    r.rcd.checksum = 0#8 ∧ r.rcd.valid = false ∧ (∀ i, i < c.maxDataBytes → r.payByte i = some 0x00#8)

/-- R233: reset and INIT leave the same two machines and write no cell of `LB`; reset zeroes the record and `PAY`, INIT keeps
them; and right after a reset INIT changes nothing. -/
def Obligations.InitComparedWithReset : Prop :=
  (∀ (s : State) (w : CmdWord), ∃ t u, exec .init s = .next t ∧ cycle { rst := true, cmd := w } s = .next u ∧
    t.la = u.la ∧ t.dec = u.dec ∧
    u.la = { active := false, wrPtr := 0, lb := s.la.lb, lineLen := 0, feedStatus := .busy } ∧
    u.dec = { state := .init, status := .idle, rdPtr := 0, didx := 0 } ∧
    (∀ i, t.lineByte i = s.lineByte i ∧ u.lineByte i = s.lineByte i) ∧
    t.rcd = s.rcd ∧
    u.rcd = { length := 0#8, address := 0#16, type := 0#8, offset := 0#32, start := 0#32, checksum := 0#8,
              valid := false, pay := u.rcd.pay } ∧
    (∀ i, i < s.cfg.maxDataBytes → u.payByte i = some 0x00#8) ∧
    exec .init u = .next u) ∧
  (∀ (c : Config) (ins : List CycleInput), exec .init (State.resetWith c ins) = .next (State.resetWith c ins))

/-- R202, R140: the Line Assembler is not disturbed by the decoder: two states that agree on it, on the parameters and on
what the host drives still agree on it after a step, whatever their decoders and records hold. -/
def Obligations.DecoderNeverChangesLineAssembler : Prop :=
  ∀ s u s' u' : State, s.la = u.la → s.cfg = u.cfg → s.inputs = u.inputs →
    step s = .next s' → step u = .next u' → s'.la = u'.la

/-- R56, R241: the decoder step of a cycle is the same whatever byte is fed in that cycle: it reads the state from before
the FEED. -/
def Obligations.DecoderStepIgnoresFeedOfItsCycle : Prop :=
  ∀ (s : State) (b : Byte), Inv s →
    ∃ t u, commandCycle (.feed b) s = .next t ∧ commandCycle .nop s = .next u ∧ t.dec = u.dec ∧ t.rcd = u.rcd

/-- R206: with no pass running, `dec_status` and the record stay as they are in every cycle without DECODE, INIT or reset. -/
def Obligations.TerminalStatusStays : Prop :=
  ∀ (s : State) (w : CmdWord), s.dec.status ≠ .busy →
    decodeCommand w = .nop ∨ decodeCommand w = .feed (cmdData w) →
    ∃ t, cycle { rst := false, cmd := w } s = .next t ∧ t.dec = s.dec ∧ t.rcd = s.rcd

/-- R241: a start marker fed while a pass runs leaves `line_len = 0`, and while it is 0 the next field step of the pass
raises ParseError, which the ERROR step reports. -/
def Obligations.StartMarkerDuringPassAbortsIt : Prop :=
  ∀ s : State, Inv s → s.dec.status = .busy →
    (s.la.active = false → ∃ t, commandCycle (.feed 0x3A#8) s = .next t ∧ t.la.lineLen = 0) ∧
    (s.la.lineLen = 0 → (fieldWidth s s.dec.state).isSome →
      ∃ t u, commandCycle .nop s = .next t ∧ t = { s with dec := { s.dec with state := .error } } ∧
        commandCycle .nop t = .next u ∧ u = { t with dec := { t.dec with state := .done, status := .parseError } })

/-- R42: the parameters never change. -/
def Obligations.ParametersNeverChange : Prop := ∀ s t : State, step s = .next t → t.cfg = s.cfg

/-! ### Invariants -/

/-- R43, R44: from every state with the invariant, a step answers a next state, that state has it too, and while a
completed line stands no cell of `LB` is written (R43, 3). -/
def Obligations.EveryStepKeepsTheInvariant : Prop :=
  ∀ s : State, Inv s → ∃ t, step s = .next t ∧ Inv t ∧
    (s.la.lineLen ≠ 0 → t.la.lineLen ≠ 0 → t.la.lineLen = s.la.lineLen ∧ t.la.lb = s.la.lb)

/-- The invariant holds after reset, with any parameters. -/
def Obligations.ResetHasTheInvariant : Prop :=
  Inv State.reset ∧ ∀ (c : Config) (ins : List CycleInput), Inv (State.resetWith c ins)

/-- R207: no run stops: every input sequence, with resets and every command word at every time, gives a next state. -/
def Obligations.NoInputSequenceStops : Prop :=
  ∀ (c : Config) (xs : List CycleInput), ∃ t, runInputs xs (State.resetWith c []) = .next t ∧ Inv t

/-- R9: no cursor outgrows its register. -/
def Obligations.CursorsFitTheirRegisters : Prop :=
  ∀ s : State, Inv s →
    s.la.wrPtr < 2 ^ s.cfg.ptrW ∧ s.la.lineLen < 2 ^ s.cfg.ptrW ∧ s.dec.rdPtr < 2 ^ s.cfg.ptrW ∧
    s.dec.didx < 2 ^ s.cfg.didxW

/-- R41: every output port shows its register, the statuses and `dec_state` in the codes of R25, R26 and R27, `rec_data` the
cells of `PAY`. R38: two states that differ only in `LB`, `wr_ptr`, `rd_ptr` and `didx` look alike. -/
def Obligations.PortsShowTheRegisters : Prop :=
  (∀ s : State,
    s.ports.feedStatus = (match s.la.feedStatus with | .busy => 0#2 | .lineComplete => 1#2 | .overflow => 2#2) ∧
    s.ports.decStatus = (match s.dec.status with
      | .idle => 0#3 | .busy => 1#3 | .successful => 2#3 | .checksumError => 3#3 | .parseError => 4#3
      | .invalidDigit => 5#3) ∧
    s.ports.decState = (match s.dec.state with
      | .init => 0#4 | .getLength => 1#4 | .getAddress => 2#4 | .getType => 3#4 | .getData => 4#4 | .getExt => 5#4
      | .getChecksum => 6#4 | .error => 7#4 | .done => 8#4) ∧
    s.ports.laActive = (if s.la.active = true then 1#1 else 0#1) ∧
    s.ports.lineLen = s.la.lineLen ∧
    s.ports.recLength = s.rcd.length ∧ s.ports.recAddress = s.rcd.address ∧ s.ports.recType = s.rcd.type ∧
    s.ports.recOffset = s.rcd.offset ∧ s.ports.recStart = s.rcd.start ∧ s.ports.recChecksum = s.rcd.checksum ∧
    s.ports.recValid = (if s.rcd.valid = true then 1#1 else 0#1) ∧
    s.ports.recData.length = s.cfg.maxDataBytes ∧ (∀ i, s.ports.recData[i]? = s.payByte i)) ∧
  (∀ (s : State) (lb : Memory) (wr rd di : Nat),
    State.ports { s with la := { s.la with lb := lb, wrPtr := wr }, dec := { s.dec with rdPtr := rd, didx := di } } =
      s.ports)

/-! ### Whole lines and whole passes -/

/-- R106: bytes with no start marker among them, fed while inactive, change nothing of the Line Assembler but
`feed_status`, also beside a running pass; with no pass running they change nothing else at all. -/
def Obligations.LeadingNoiseIsIgnored : Prop :=
  ∀ (s : State) (bs : List Byte), s.la.active = false → bs ≠ [] → 0x3A#8 ∉ bs →
    (s.dec.status ≠ .busy →
      runWords (bs.map feedWord) s = .next { s with la := { s.la with feedStatus := .busy } }) ∧
    (Inv s → ∃ t, runWords (bs.map feedWord) s = .next t ∧ t.la = { s.la with feedStatus := .busy })

/-- R108: a line of at most LINE_CAP characters, fed from an inactive state, completes exactly once, at its carriage
return, and is then the line that stands. -/
def Obligations.LineCompletesExactlyOnce : Prop :=
  ∀ (s : State) (cs : List Byte), Inv s → s.la.active = false → cs.length ≤ s.cfg.lineCap → 0x0D#8 ∉ cs →
    (∃ t, runLine (.feedline cs) s = .next t ∧ t.la.feedStatus = .lineComplete ∧ t.la.active = false ∧
      t.la.lineLen = cs.length ∧ (∀ i, i < cs.length → t.lineByte i = cs[i]?)) ∧
    (∀ k, k ≤ cs.length → ∃ u, runWords (feedWord 0x3A#8 :: (cs.take k).map feedWord) s = .next u ∧
      u.la.feedStatus = .busy)

/-- R109, R111: from an inactive state, a start marker and LINE_CAP characters fill the buffer; one more character
overflows, and what is left of the line, its carriage return included, completes nothing. -/
def Obligations.OverlongLineOverflows : Prop :=
  ∀ (s : State) (cs rest : List Byte) (b : Byte), Inv s → s.la.active = false → cs.length = s.cfg.lineCap →
    0x0D#8 ∉ cs → b ≠ 0x0D#8 → 0x3A#8 ∉ rest →
    ∃ t u v, runWords (feedWord 0x3A#8 :: cs.map feedWord) s = .next t ∧
      t.la.active = true ∧ t.la.wrPtr = s.cfg.lineCap ∧ t.la.feedStatus = .busy ∧
      (∀ i, i < cs.length → t.lineByte i = cs[i]?) ∧ t.la.lb.wf lineUnlisted s.cfg.lineCap = true ∧
      runWords [feedWord b] t = .next u ∧
      u.la = { t.la with wrPtr := 0, active := false, lineLen := 0, feedStatus := .overflow } ∧
      runWords (rest.map feedWord) u = .next v ∧ v.la.lineLen = 0 ∧ v.la.feedStatus ≠ .lineComplete

/-- R250, R251: a running pass ends within MAX_DATA_BYTES + 6 cycles that carry neither INIT nor reset, whatever else they
carry. -/
def Obligations.EveryPassEnds : Prop :=
  ∀ (s : State) (xs : List CycleInput), Inv s → xs.length = s.cfg.maxDataBytes + 6 →
    (∀ x ∈ xs, leavesPass x = true) →
    ∃ k t, k ≤ xs.length ∧ runInputs (xs.take k) s = .next t ∧ t.dec.status ≠ .busy

/-- R166: a pass over a completed line that nothing modifies ends in DEC_SUCCESSFUL exactly when the line holds every
field of an accepted record, all hex, with a matching checksum; it then holds the record and its payload. Where only the
checksum differs it ends in DEC_CHECKSUM_ERROR with the same record; everywhere else in one of the two other errors. -/
def Obligations.PassDecodesTheLine : Prop :=
  ∀ s : State, Inv s → s.dec.status ≠ .busy →
    ∃ t, runTrace [.decode, .idle (s.cfg.maxDataBytes + 6)] s = .next t ∧
      match recordBytes s.cfg (lineText s) with
      | some bs =>
        t.dec.status = (if checksumHolds bs then .successful else .checksumError) ∧
        t.rcd.valid = checksumHolds bs ∧ RegistersHold bs t.rcd ∧ PayloadHolds bs s t
      | none => (t.dec.status = .parseError ∨ t.dec.status = .invalidDigit) ∧ t.rcd.valid = false

/-- R167: a pass depends on the completed line and the parameters alone: two states that agree on those, whatever else
they hold, end with the same status, the same record registers, and the same payload in every cell that the pass wrote,
those below the failing index of a pass that failed in GET_DATA among them; after a Data record that was read whole these
are the cells below `rec_length`. -/
def Obligations.PassDependsOnlyOnTheLine : Prop :=
  ∀ s u : State, Inv s → Inv u → s.cfg = u.cfg → lineText s = lineText u →
    s.dec.status ≠ .busy → u.dec.status ≠ .busy →
    ∃ s' u', hostDecode s = .next s' ∧ hostDecode u = .next u' ∧ s'.dec = u'.dec ∧
      { s'.rcd with pay := ⟨[]⟩ } = { u'.rcd with pay := ⟨[]⟩ } ∧
      (∀ i, i < s'.dec.didx → s'.payByte i = u'.payByte i) ∧
      (s'.dec.status = .successful ∨ s'.dec.status = .checksumError → s'.rcd.type = 0x00#8 →
        s'.dec.didx = s'.rcd.length.toNat)

/-- R165, R250: a pass over a line that holds a whole record is running before its last step and ended after it: L + 5
steps for Data, 5 for End Of File, 6 for an address record. -/
def Obligations.PassTakesItsSteps : Prop :=
  ∀ (s : State) (bs : List Byte), Inv s → s.dec.status ≠ .busy → recordBytes s.cfg (lineText s) = some bs →
    ∃ t u, runTrace [.decode, .idle (passSteps bs - 1)] s = .next t ∧ t.dec.status = .busy ∧
      runTrace [.decode, .idle (passSteps bs)] s = .next u ∧ u.dec.status ≠ .busy

/-- R85 to R88: what the lines of a trace expand to; WAITDEC is NOP cycles, no more than the longest pass, and ends with no
pass running (its bound: notes/assumptions/11.md). -/
def Obligations.TraceLinesExpand : Prop :=
  (∀ text : List Byte, ∃ ws, TraceLine.words (.feedline text) = some ws ∧ ws.length = text.length + 2 ∧
    ws = 0x13A#10 :: (text.map (fun c => 0x100#10 ||| c.setWidth 10) ++ [0x10D#10])) ∧
  (∀ text : List Byte, TraceLine.words (.feedstr text) = some (text.map fun c => 0x100#10 ||| c.setWidth 10)) ∧
  (∀ n : Nat, TraceLine.words (.idle n) = some (List.replicate n 0x000#10)) ∧
  (∀ s : State, Inv s → ∃ k t, k ≤ s.cfg.maxDataBytes + 6 ∧ runLine .waitdec s = .next t ∧
    runWords (List.replicate k 0x000#10) s = .next t ∧ t.dec.status ≠ .busy)
end

