-- ==== Sys2Proof/Laws/State.lean ====
section
/-! SUPPORT. One lemma per field per update of State, and the same for the shared operations of the decoder, so that no
proof unfolds a record update. -/

namespace Sys2Proof.Machine

variable (s : State)

@[simp] theorem setLa_la (l : LineAsm) : (s.setLa l).la = l := rfl
@[simp] theorem setLa_dec (l : LineAsm) : (s.setLa l).dec = s.dec := rfl
@[simp] theorem setLa_rcd (l : LineAsm) : (s.setLa l).rcd = s.rcd := rfl
@[simp] theorem setLa_inputs (l : LineAsm) : (s.setLa l).inputs = s.inputs := rfl
@[simp] theorem setLa_cfg (l : LineAsm) : (s.setLa l).cfg = s.cfg := rfl

@[simp] theorem setDec_la (d : Decoder) : (s.setDec d).la = s.la := rfl
@[simp] theorem setDec_dec (d : Decoder) : (s.setDec d).dec = d := rfl
@[simp] theorem setDec_rcd (d : Decoder) : (s.setDec d).rcd = s.rcd := rfl
@[simp] theorem setDec_inputs (d : Decoder) : (s.setDec d).inputs = s.inputs := rfl
@[simp] theorem setDec_cfg (d : Decoder) : (s.setDec d).cfg = s.cfg := rfl

@[simp] theorem setRcd_la (r : Record) : (s.setRcd r).la = s.la := rfl
@[simp] theorem setRcd_dec (r : Record) : (s.setRcd r).dec = s.dec := rfl
@[simp] theorem setRcd_rcd (r : Record) : (s.setRcd r).rcd = r := rfl
@[simp] theorem setRcd_inputs (r : Record) : (s.setRcd r).inputs = s.inputs := rfl
@[simp] theorem setRcd_cfg (r : Record) : (s.setRcd r).cfg = s.cfg := rfl

@[simp] theorem setInputs_la (ins : List CycleInput) : (s.setInputs ins).la = s.la := rfl
@[simp] theorem setInputs_dec (ins : List CycleInput) : (s.setInputs ins).dec = s.dec := rfl
@[simp] theorem setInputs_rcd (ins : List CycleInput) : (s.setInputs ins).rcd = s.rcd := rfl
@[simp] theorem setInputs_inputs (ins : List CycleInput) : (s.setInputs ins).inputs = ins := rfl
@[simp] theorem setInputs_cfg (ins : List CycleInput) : (s.setInputs ins).cfg = s.cfg := rfl

@[simp] theorem setLa_setLa (l l' : LineAsm) : (s.setLa l).setLa l' = s.setLa l' := rfl
@[simp] theorem setDec_setDec (d d' : Decoder) : (s.setDec d).setDec d' = s.setDec d' := rfl
@[simp] theorem setRcd_setRcd (r r' : Record) : (s.setRcd r).setRcd r' = s.setRcd r' := rfl
@[simp] theorem setInputs_setInputs (ins ins' : List CycleInput) : (s.setInputs ins).setInputs ins' = s.setInputs ins' := rfl

@[simp] theorem setLa_lineByte_of_lb (l : LineAsm) (h : l.lb = s.la.lb) (i : Nat) :
    (s.setLa l).lineByte i = s.lineByte i := by simp [State.lineByte, h]

@[simp] theorem setDec_lineByte (d : Decoder) (i : Nat) : (s.setDec d).lineByte i = s.lineByte i := rfl
@[simp] theorem setRcd_lineByte (r : Record) (i : Nat) : (s.setRcd r).lineByte i = s.lineByte i := rfl
@[simp] theorem setInputs_lineByte (ins : List CycleInput) (i : Nat) : (s.setInputs ins).lineByte i = s.lineByte i := rfl
@[simp] theorem setLa_payByte (l : LineAsm) (i : Nat) : (s.setLa l).payByte i = s.payByte i := rfl
@[simp] theorem setDec_payByte (d : Decoder) (i : Nat) : (s.setDec d).payByte i = s.payByte i := rfl
@[simp] theorem setInputs_payByte (ins : List CycleInput) (i : Nat) : (s.setInputs ins).payByte i = s.payByte i := rfl

@[simp] theorem setRcd_payByte_of_pay (r : Record) (h : r.pay = s.rcd.pay) (i : Nat) :
    (s.setRcd r).payByte i = s.payByte i := by simp [State.payByte, h]

@[simp] theorem goto_la (k : DecState) : (goto k s).la = s.la := rfl
@[simp] theorem goto_rcd (k : DecState) : (goto k s).rcd = s.rcd := rfl
@[simp] theorem goto_inputs (k : DecState) : (goto k s).inputs = s.inputs := rfl
@[simp] theorem goto_cfg (k : DecState) : (goto k s).cfg = s.cfg := rfl
@[simp] theorem goto_state (k : DecState) : (goto k s).dec.state = k := rfl
@[simp] theorem goto_status (k : DecState) : (goto k s).dec.status = s.dec.status := rfl
@[simp] theorem goto_rdPtr (k : DecState) : (goto k s).dec.rdPtr = s.dec.rdPtr := rfl
@[simp] theorem goto_didx (k : DecState) : (goto k s).dec.didx = s.dec.didx := rfl

@[simp] theorem raiseParse_la : (raiseParse s).la = s.la := rfl
@[simp] theorem raiseParse_rcd : (raiseParse s).rcd = s.rcd := rfl
@[simp] theorem raiseParse_inputs : (raiseParse s).inputs = s.inputs := rfl
@[simp] theorem raiseParse_cfg : (raiseParse s).cfg = s.cfg := rfl
@[simp] theorem raiseParse_state : (raiseParse s).dec.state = .error := rfl
@[simp] theorem raiseParse_status : (raiseParse s).dec.status = s.dec.status := rfl
@[simp] theorem raiseParse_rdPtr : (raiseParse s).dec.rdPtr = s.dec.rdPtr := rfl
@[simp] theorem raiseParse_didx : (raiseParse s).dec.didx = s.dec.didx := rfl

@[simp] theorem finish_la (x : DecStatus) : (finish x s).la = s.la := rfl
@[simp] theorem finish_rcd (x : DecStatus) : (finish x s).rcd = s.rcd := rfl
@[simp] theorem finish_inputs (x : DecStatus) : (finish x s).inputs = s.inputs := rfl
@[simp] theorem finish_cfg (x : DecStatus) : (finish x s).cfg = s.cfg := rfl
@[simp] theorem finish_state (x : DecStatus) : (finish x s).dec.state = .done := rfl
@[simp] theorem finish_status (x : DecStatus) : (finish x s).dec.status = x := rfl
@[simp] theorem finish_rdPtr (x : DecStatus) : (finish x s).dec.rdPtr = s.dec.rdPtr := rfl
@[simp] theorem finish_didx (x : DecStatus) : (finish x s).dec.didx = s.dec.didx := rfl

@[simp] theorem advance_la (n : Nat) : (advance n s).la = s.la := rfl
@[simp] theorem advance_rcd (n : Nat) : (advance n s).rcd = s.rcd := rfl
@[simp] theorem advance_inputs (n : Nat) : (advance n s).inputs = s.inputs := rfl
@[simp] theorem advance_cfg (n : Nat) : (advance n s).cfg = s.cfg := rfl
@[simp] theorem advance_state (n : Nat) : (advance n s).dec.state = s.dec.state := rfl
@[simp] theorem advance_status (n : Nat) : (advance n s).dec.status = s.dec.status := rfl
@[simp] theorem advance_rdPtr (n : Nat) : (advance n s).dec.rdPtr = s.dec.rdPtr + n := rfl
@[simp] theorem advance_didx (n : Nat) : (advance n s).dec.didx = s.dec.didx := rfl

@[simp] theorem accumulate_la (bs : List Byte) : (accumulate bs s).la = s.la := rfl
@[simp] theorem accumulate_dec (bs : List Byte) : (accumulate bs s).dec = s.dec := rfl
@[simp] theorem accumulate_rcd (bs : List Byte) :
    (accumulate bs s).rcd = { s.rcd with checksum := s.rcd.checksum + sum8 bs } := rfl
@[simp] theorem accumulate_inputs (bs : List Byte) : (accumulate bs s).inputs = s.inputs := rfl
@[simp] theorem accumulate_cfg (bs : List Byte) : (accumulate bs s).cfg = s.cfg := rfl

@[simp] theorem applyReset_la : (applyReset s).la = { LineAsm.reset with lb := s.la.lb } := rfl
@[simp] theorem applyReset_lineByte (i : Nat) : (applyReset s).lineByte i = s.lineByte i := rfl
@[simp] theorem applyReset_dec : (applyReset s).dec = Decoder.reset := rfl
@[simp] theorem applyReset_rcd : (applyReset s).rcd = Record.reset := rfl
@[simp] theorem applyReset_inputs : (applyReset s).inputs = s.inputs := rfl
@[simp] theorem applyReset_cfg : (applyReset s).cfg = s.cfg := rfl

/-- Two states with equal fields are equal. -/
theorem State.ext_fields {s t : State} (h1 : s.la = t.la) (h2 : s.dec = t.dec) (h3 : s.rcd = t.rcd)
    (h4 : s.inputs = t.inputs) (h5 : s.cfg = t.cfg) : s = t := by
  cases s; cases t; simp_all

end Sys2Proof.Machine
end

