-- ==== Sys2Proof/Laws/Memory.lean ====
section
/-! SUPPORT. The two stores: a read after a write gives the byte written and no other cell changes, and every operation
keeps the canonical form. -/

namespace Sys2Proof.Machine

theorem lookupCell_insertCell_same (m : List Host.Cell) (i : Nat) (v : Byte) :
    lookupCell (insertCell m i v) i = some v := by
  induction m with
  | nil => simp [insertCell, lookupCell]
  | cons c r ih =>
    obtain ⟨a, b⟩ := c
    simp only [insertCell]
    split
    · simp [lookupCell]
    · split
      · simp [lookupCell]
      · simp_all [lookupCell]

theorem lookupCell_insertCell_other (m : List Host.Cell) (i j : Nat) (v : Byte) (h : j ≠ i) :
    lookupCell (insertCell m i v) j = lookupCell m j := by
  induction m with
  | nil => simp [insertCell, lookupCell, Ne.symm h]
  | cons c r ih =>
    obtain ⟨a, b⟩ := c
    simp only [insertCell]
    split
    · rename_i ha; subst ha; simp [lookupCell, Ne.symm h]
    · split
      · simp [lookupCell, Ne.symm h]
      · simp only [lookupCell, ih]

theorem lookupCell_eraseCell_same (m : List Host.Cell) (i : Nat) : lookupCell (eraseCell m i) i = none := by
  induction m with
  | nil => rfl
  | cons c r ih =>
    obtain ⟨a, b⟩ := c
    simp only [eraseCell]
    split <;> simp_all [lookupCell]

theorem lookupCell_eraseCell_other (m : List Host.Cell) (i j : Nat) (h : j ≠ i) :
    lookupCell (eraseCell m i) j = lookupCell m j := by
  induction m with
  | nil => rfl
  | cons c r ih =>
    obtain ⟨a, b⟩ := c
    simp only [eraseCell]
    split
    · rename_i ha; subst ha; simp [lookupCell, Ne.symm h, ih]
    · simp only [lookupCell, ih]

/-- A read after a write to the same cell gives the byte written. -/
@[simp] theorem read_write_same (d : Option Byte) (m : Memory) (i : Nat) (v : Byte) :
    (m.write d i v).read d i = some v := by
  by_cases hd : d = some v
  · simp [Memory.write, Memory.read, hd, lookupCell_eraseCell_same]
  · simp [Memory.write, Memory.read, hd, lookupCell_insertCell_same]

/-- A write leaves every other cell alone. -/
theorem read_write_other (d : Option Byte) (m : Memory) (i j : Nat) (v : Byte) (h : j ≠ i) :
    (m.write d i v).read d j = m.read d j := by
  by_cases hd : d = some v
  · simp [Memory.write, Memory.read, hd, lookupCell_eraseCell_other _ _ _ h]
  · simp [Memory.write, Memory.read, hd, lookupCell_insertCell_other _ _ _ _ h]

/-- What one cell reads as after a write. -/
theorem read_write (d : Option Byte) (m : Memory) (i j : Nat) (v : Byte) :
    (m.write d i v).read d j = if j = i then some v else m.read d j := by
  split
  · rename_i h; subst h; exact read_write_same d m j v
  · rename_i h; exact read_write_other d m i j v h

theorem cellsRising_mono {lo lo' : Nat} (h : lo' ≤ lo) {m : List Host.Cell} (hm : cellsRising lo m = true) :
    cellsRising lo' m = true := by
  cases m with
  | nil => rfl
  | cons c r => simp_all [cellsRising]; omega

theorem cellsRising_eraseCell {lo : Nat} {m : List Host.Cell} (i : Nat) (hm : cellsRising lo m = true) :
    cellsRising lo (eraseCell m i) = true := by
  induction m generalizing lo with
  | nil => rfl
  | cons c r ih =>
    obtain ⟨a, b⟩ := c
    simp only [cellsRising, Bool.and_eq_true, decide_eq_true_eq] at hm
    simp only [eraseCell]
    split
    · exact cellsRising_mono (by omega) (ih hm.2)
    · simp [cellsRising, hm.1, ih hm.2]

theorem cellsRising_insertCell {lo : Nat} {m : List Host.Cell} (i : Nat) (v : Byte) (hi : lo ≤ i)
    (hm : cellsRising lo m = true) : cellsRising lo (insertCell m i v) = true := by
  induction m generalizing lo with
  | nil => simp [insertCell, cellsRising, hi]
  | cons c r ih =>
    obtain ⟨a, b⟩ := c
    simp only [cellsRising, Bool.and_eq_true, decide_eq_true_eq] at hm
    simp only [insertCell]
    split
    · rename_i ha; subst ha; simp [cellsRising, hm.1, hm.2]
    · split
      · simp only [cellsRising, Bool.and_eq_true, decide_eq_true_eq]
        exact ⟨hi, by omega, hm.2⟩
      · simp only [cellsRising, Bool.and_eq_true, decide_eq_true_eq]
        exact ⟨hm.1, ih (by omega) hm.2⟩

theorem mem_eraseCell {m : List Host.Cell} {i : Nat} {c : Host.Cell} (h : c ∈ eraseCell m i) : c ∈ m := by
  induction m with
  | nil => exact h
  | cons x r ih =>
    obtain ⟨a, b⟩ := x
    simp only [eraseCell] at h
    split at h
    · exact List.mem_cons_of_mem _ (ih h)
    · rcases List.mem_cons.1 h with h | h
      · simp [h]
      · exact List.mem_cons_of_mem _ (ih h)

theorem mem_insertCell {m : List Host.Cell} {i : Nat} {v : Byte} {c : Host.Cell} (h : c ∈ insertCell m i v) :
    c = (i, v) ∨ c ∈ m := by
  induction m with
  | nil => simpa [insertCell] using h
  | cons x r ih =>
    obtain ⟨a, b⟩ := x
    simp only [insertCell] at h
    split at h
    · rcases List.mem_cons.1 h with h | h
      · exact .inl h
      · exact .inr (List.mem_cons_of_mem _ h)
    · split at h
      · rcases List.mem_cons.1 h with h | h
        · exact .inl h
        · exact .inr h
      · rcases List.mem_cons.1 h with h | h
        · simp [h]
        · rcases ih h with h | h
          · exact .inl h
          · exact .inr (List.mem_cons_of_mem _ h)

/-- A write inside the store keeps the canonical form. -/
theorem write_wf {d : Option Byte} {cap : Nat} {m : Memory} {i : Nat} {v : Byte} (hi : i < cap)
    (hm : m.wf d cap = true) : (m.write d i v).wf d cap = true := by
  simp only [Memory.wf, Bool.and_eq_true, List.all_eq_true, decide_eq_true_eq] at hm ⊢
  unfold Memory.write
  split
  · exact ⟨cellsRising_eraseCell i hm.1, fun c hc => hm.2 c (mem_eraseCell hc)⟩
  · rename_i hd
    refine ⟨cellsRising_insertCell i v (by omega) hm.1, fun c hc => ?_⟩
    rcases mem_insertCell hc with h | h
    · subst h; exact ⟨hi, hd⟩
    · exact hm.2 c h

/-- The stores of the reset state are canonical. -/
theorem empty_wf (d : Option Byte) (cap : Nat) : Memory.wf d cap ⟨[]⟩ = true := rfl

/-- In a canonical list, nothing is listed below the least index. -/
theorem lookupCell_below {lo : Nat} {m : List Host.Cell} (hm : cellsRising lo m = true) {i : Nat} (hi : i < lo) :
    lookupCell m i = none := by
  induction m generalizing lo with
  | nil => rfl
  | cons c r ih =>
    obtain ⟨a, b⟩ := c
    simp only [cellsRising, Bool.and_eq_true, decide_eq_true_eq] at hm
    simp only [lookupCell]
    rw [if_neg (by omega), ih hm.2 (by omega)]

/-- Canonical stores that read alike are equal: equal contents are equal data. -/
theorem rising_ext {lo : Nat} {m n : List Host.Cell} (hm : cellsRising lo m = true) (hn : cellsRising lo n = true)
    (h : ∀ i, lookupCell m i = lookupCell n i) : m = n := by
  induction m generalizing lo n with
  | nil =>
    cases n with
    | nil => rfl
    | cons c r => obtain ⟨a, b⟩ := c; simpa [lookupCell] using h a
  | cons c r ih =>
    obtain ⟨a, b⟩ := c
    cases n with
    | nil => simpa [lookupCell] using h a
    | cons c' r' =>
      obtain ⟨a', b'⟩ := c'
      simp only [cellsRising, Bool.and_eq_true, decide_eq_true_eq] at hm hn
      have haa : a = a' := by
        rcases Nat.lt_trichotomy a a' with hlt | heq | hgt
        · have := h a
          simp [lookupCell, lookupCell_below hn.2 (show a < a' + 1 by omega), Nat.ne_of_gt hlt] at this
        · exact heq
        · have := h a'
          simp [lookupCell, lookupCell_below hm.2 (show a' < a + 1 by omega), Nat.ne_of_gt hgt] at this
      subst haa
      have hb : b = b' := by simpa [lookupCell] using h a
      subst hb
      have : r = r' := by
        refine ih hm.2 hn.2 (fun i => ?_)
        by_cases hi : a = i
        · subst hi
          rw [lookupCell_below hm.2 (by omega), lookupCell_below hn.2 (by omega)]
        · simpa [lookupCell, hi] using h i
      rw [this]

theorem lookupCell_mem {m : List Host.Cell} {i : Nat} {b : Byte} (h : lookupCell m i = some b) : (i, b) ∈ m := by
  induction m with
  | nil => simp [lookupCell] at h
  | cons c r ih =>
    obtain ⟨a, x⟩ := c
    simp only [lookupCell] at h
    split at h
    · simp_all
    · exact List.mem_cons_of_mem _ (ih h)

/-- Two canonical stores with the same reads are the same data. -/
theorem memory_ext {d : Option Byte} {cap : Nat} {m n : Memory} (hm : m.wf d cap = true) (hn : n.wf d cap = true)
    (h : ∀ i, m.read d i = n.read d i) : m = n := by
  simp only [Memory.wf, Bool.and_eq_true, List.all_eq_true, decide_eq_true_eq] at hm hn
  have key : m.cells = n.cells := by
    refine rising_ext hm.1 hn.1 (fun i => ?_)
    have hi := h i
    unfold Memory.read at hi
    cases hx : lookupCell m.cells i with
    | none =>
      cases hy : lookupCell n.cells i with
      | none => rfl
      | some y =>
        rw [hx, hy] at hi
        exact absurd hi (hn.2 _ (lookupCell_mem hy)).2
    | some x =>
      cases hy : lookupCell n.cells i with
      | none =>
        rw [hx, hy] at hi
        exact absurd hi.symm (hm.2 _ (lookupCell_mem hx)).2
      | some y => rw [hx, hy] at hi; exact hi
  cases m; cases n; simp_all

end Sys2Proof.Machine
end

