-- ==== Sys2Proof/Laws/Operands.lean ====
section
/-! SUPPORT. What the read primitives can give: each lemma says it once. -/

namespace Sys2Proof.Machine

@[simp] theorem pairs_nil : pairs [] = some [] := rfl

theorem pairs_cons_cons (c0 c1 : Byte) (r : List Byte) :
    pairs (c0 :: c1 :: r) =
      match pairval c0 c1, pairs r with
      | some b, some bs => some (b :: bs)
      | _, _ => none := rfl

/-- A list that pairs up has twice as many characters as bytes. -/
theorem length_of_pairs : ∀ {cs bs : List Byte}, pairs cs = some bs → cs.length = 2 * bs.length
  | [], bs, h => by simp [pairs] at h; simp [h]
  | [_], _, h => by simp [pairs] at h
  | c0 :: c1 :: r, bs, h => by
    rw [pairs_cons_cons] at h
    split at h
    · rename_i b rest _ hr
      have hl := length_of_pairs hr
      simp only [Option.some.injEq] at h
      subst h
      simp only [List.length_cons]
      omega
    · simp at h

@[simp] theorem be_nil : be [] = 0 := rfl

/-- Adding a byte at the end shifts the value by 8 bits (R123). -/
theorem be_append (bs : List Byte) (b : Byte) : be (bs ++ [b]) = be bs * 256 + b.toNat := by
  simp [be]

@[simp] theorem be_single (b : Byte) : be [b] = b.toNat := by simp [be]

@[simp] theorem sum8_nil : sum8 [] = 0#8 := rfl

theorem sum8_append (bs : List Byte) (b : Byte) : sum8 (bs ++ [b]) = sum8 bs + b := by simp [sum8]

@[simp] theorem sum8_single (b : Byte) : sum8 [b] = b := by simp [sum8]

/-- One cell of `LB`, by the state's own reading of it. -/
theorem readLineCell_ok {s : State} {i : Nat} {b : Byte} (h : s.lineByte i = some b) :
    readLineCell s.cfg.lineCap s.la.lb i = .ok b := by
  unfold State.lineByte at h
  split at h
  · rename_i hi
    simp [readLineCell, hi, h]
  · simp at h

/-- `MemRead(i, n)` gives the cells from `i` on where each has been written. -/
theorem memRead_ok {s : State} : ∀ {n i : Nat} {cs : List Byte},
    cs.length = n → (∀ k, k < n → s.lineByte (i + k) = cs[k]?) →
    memRead s.cfg.lineCap s.la.lb i n = .ok cs
  | 0, i, cs, hl, _ => by
    rw [List.length_eq_zero_iff] at hl
    simp [memRead, hl]
  | n + 1, i, cs, hl, h => by
    cases cs with
    | nil => simp at hl
    | cons c r =>
      have h0 : s.lineByte i = some c := by simpa using h 0 (by omega)
      have hr : memRead s.cfg.lineCap s.la.lb (i + 1) n = .ok r := by
        refine memRead_ok (by simpa using hl) (fun k hk => ?_)
        have := h (k + 1) (by omega)
        simpa [Nat.add_assoc, Nat.add_comm 1 k] using this
      simp [memRead, readLineCell_ok h0, hr]

/-- `MemRead(i, n)` gives `n` characters. -/
theorem length_of_memRead {cap : Nat} {lb : Memory} : ∀ {n i : Nat} {cs : List Byte},
    memRead cap lb i n = .ok cs → cs.length = n
  | 0, i, cs, h => by simp [memRead] at h; simp [← h]
  | n + 1, i, cs, h => by
    unfold memRead at h
    split at h
    · simp at h
    · split at h
      · simp at h
      · rename_i bs hbs
        have := length_of_memRead hbs
        simp only [Except.ok.injEq] at h
        subst h
        simp [this]

/-- The cells `MemRead(i, n)` gives are the state's own readings. -/
theorem lineByte_of_memRead {s : State} : ∀ {n i : Nat} {cs : List Byte},
    memRead s.cfg.lineCap s.la.lb i n = .ok cs → ∀ k, k < n → s.lineByte (i + k) = cs[k]?
  | 0, i, cs, _, k, hk => by omega
  | n + 1, i, cs, h, k, hk => by
    unfold memRead at h
    split at h
    · simp at h
    · rename_i b hb
      split at h
      · simp at h
      · rename_i bs hbs
        simp only [Except.ok.injEq] at h
        subst h
        cases k with
        | zero =>
          unfold readLineCell at hb
          unfold State.lineByte
          split at hb
          · rename_i hi
            simp only [Nat.add_zero, hi, if_true]
            split at hb <;> simp_all
          · simp at hb
        | succ k =>
          have := lineByte_of_memRead hbs k (by omega)
          simpa [Nat.add_assoc, Nat.add_comm 1 k] using this

/-- Everything `readfield(n)` can give, with the condition for each (R142, R143, R144). -/
theorem readField_cases (n : Nat) (s : State) :
    (s.dec.rdPtr + 2 * n > s.la.lineLen ∧ readField n s = .short) ∨
    (s.dec.rdPtr + 2 * n ≤ s.la.lineLen ∧
      ((∃ f, memRead s.cfg.lineCap s.la.lb s.dec.rdPtr (2 * n) = .error f ∧ readField n s = .stopped f) ∨
       (∃ cs, memRead s.cfg.lineCap s.la.lb s.dec.rdPtr (2 * n) = .ok cs ∧ pairs cs = none ∧
          readField n s = .badDigit) ∨
       (∃ cs bs, memRead s.cfg.lineCap s.la.lb s.dec.rdPtr (2 * n) = .ok cs ∧ pairs cs = some bs ∧
          bs.length = n ∧ readField n s = .bytes bs))) := by
  by_cases h : s.dec.rdPtr + 2 * n > s.la.lineLen
  · exact .inl ⟨h, by simp [readField, h]⟩
  · refine .inr ⟨by omega, ?_⟩
    cases hm : memRead s.cfg.lineCap s.la.lb s.dec.rdPtr (2 * n) with
    | error f => exact .inl ⟨f, rfl, by simp [readField, h, hm]⟩
    | ok cs =>
      cases hp : pairs cs with
      | none => exact .inr (.inl ⟨cs, rfl, hp, by simp [readField, h, hm, hp]⟩)
      | some bs =>
        have h1 := length_of_memRead hm
        have h2 := length_of_pairs hp
        exact .inr (.inr ⟨cs, bs, rfl, hp, by omega, by simp [readField, h, hm, hp]⟩)

/-- A short line raises ParseError and writes nothing else (R142). -/
theorem withField_short {n : Nat} {s : State} {k : List Byte → Host.Outcome State Fault Refusal}
    (h : s.la.lineLen < s.dec.rdPtr + 2 * n) : withField n s k = .next (raiseParse s) := by
  simp [withField, readField, h]

/-- A field whose characters are there: the digits decide (R143). -/
theorem withField_chars {n : Nat} {s : State} {k : List Byte → Host.Outcome State Fault Refusal} {cs : List Byte}
    (hb : s.dec.rdPtr + 2 * n ≤ s.la.lineLen) (hl : cs.length = 2 * n)
    (hc : ∀ j, j < 2 * n → s.lineByte (s.dec.rdPtr + j) = cs[j]?) :
    withField n s k =
      match pairs cs with
      | some bs => k bs
      | none => .next (finish .invalidDigit s) := by
  have hm := memRead_ok hl hc
  have hn : ¬ s.dec.rdPtr + 2 * n > s.la.lineLen := by omega
  cases hp : pairs cs <;> simp [withField, readField, hn, hm, hp]

/-- The fault of a character that can not be read: past the buffer, or in a cell that nothing has written. -/
theorem readLineCell_unreadable {s : State} {i : Nat} (h : s.lineByte i = none) :
    readLineCell s.cfg.lineCap s.la.lb i =
      .error (if i < s.cfg.lineCap then .lineBufferUnwritten i else .lineBufferRange i) := by
  unfold State.lineByte at h
  unfold readLineCell
  split_ifs at h ⊢ <;> simp_all

/-- `MemRead` stops at its first character that can not be read. -/
theorem memRead_unreadable {s : State} : ∀ {n i j : Nat}, j < n →
    (∀ k, k < j → (s.lineByte (i + k)).isSome) → s.lineByte (i + j) = none →
    memRead s.cfg.lineCap s.la.lb i n =
      .error (if i + j < s.cfg.lineCap then .lineBufferUnwritten (i + j) else .lineBufferRange (i + j))
  | n + 1, i, 0, _, _, h => by simp only [memRead, readLineCell_unreadable (Nat.add_zero i ▸ h), Nat.add_zero]
  | n + 1, i, j + 1, hj, hk, h => by
    obtain ⟨b, hb⟩ := Option.isSome_iff_exists.1 (hk 0 (by omega))
    have ih := memRead_unreadable (s := s) (n := n) (i := i + 1) (j := j) (by omega)
      (fun k hlt => by have := hk (k + 1) (by omega); rwa [Nat.add_comm k 1, ← Nat.add_assoc] at this)
      (by rwa [Nat.add_comm j 1, ← Nat.add_assoc] at h)
    rw [Nat.add_assoc, Nat.add_comm 1 j] at ih
    simp only [memRead, readLineCell_ok (Nat.add_zero i ▸ hb), ih]

/-- A field step stops at the first character of its field that can not be read (notes/assumptions/6.md). -/
theorem withField_unreadable {n j : Nat} {s : State} {k : List Byte → Host.Outcome State Fault Refusal}
    (hb : s.dec.rdPtr + 2 * n ≤ s.la.lineLen) (hj : j < 2 * n)
    (hk : ∀ m, m < j → (s.lineByte (s.dec.rdPtr + m)).isSome) (h : s.lineByte (s.dec.rdPtr + j) = none) :
    withField n s k = .fault (if s.dec.rdPtr + j < s.cfg.lineCap then .lineBufferUnwritten (s.dec.rdPtr + j)
      else .lineBufferRange (s.dec.rdPtr + j)) := by
  simp only [withField, readField, memRead_unreadable hj hk h, if_neg (Nat.not_lt.2 hb)]

/-- Everything a field step can do (R142 to R144): what its own writes are stands in `k`. -/
theorem withField_next {n : Nat} {s t : State} {k : List Byte → Host.Outcome State Fault Refusal}
    (h : withField n s k = .next t) :
    (s.dec.rdPtr + 2 * n > s.la.lineLen ∧ t = raiseParse s) ∨
    (s.dec.rdPtr + 2 * n ≤ s.la.lineLen ∧ t = finish .invalidDigit s) ∨
    (∃ bs, s.dec.rdPtr + 2 * n ≤ s.la.lineLen ∧ bs.length = n ∧ readField n s = .bytes bs ∧ k bs = .next t) := by
  rcases readField_cases n s with ⟨hlt, hr⟩ | ⟨hle, ⟨f, _, hr⟩ | ⟨cs, _, _, hr⟩ | ⟨cs, bs, _, _, hlen, hr⟩⟩
  · refine .inl ⟨hlt, ?_⟩
    simp [withField, hr] at h
    exact h.symm
  · simp [withField, hr] at h
  · refine .inr (.inl ⟨hle, ?_⟩)
    simp [withField, hr] at h
    exact h.symm
  · refine .inr (.inr ⟨bs, hle, hlen, hr, ?_⟩)
    simpa [withField, hr] using h

end Sys2Proof.Machine
end

