-- ==== Sys2Proof/Laws/Line.lean ====
section
/-! SUPPORT. What the Line Assembler's shared operation can do: the five paths, and which cells each leaves alone. -/

namespace Sys2Proof.Machine

/-- The five paths of a fed byte, with the condition of each (R80, R100). -/
theorem lineFeedByte_cases (cap : Nat) (b : Byte) (l : LineAsm) :
    (l.active = false ∧ b = startChar ∧ lineFeedByte cap b l = lineStart l) ∨
    (l.active = false ∧ b ≠ startChar ∧ lineFeedByte cap b l = lineDiscard l) ∨
    (l.active = true ∧ b = termChar ∧ lineFeedByte cap b l = lineTerm l) ∨
    (l.active = true ∧ b ≠ termChar ∧ l.wrPtr < cap ∧ lineFeedByte cap b l = lineStore b l) ∨
    (l.active = true ∧ b ≠ termChar ∧ cap ≤ l.wrPtr ∧ lineFeedByte cap b l = lineOverflow l) := by
  unfold lineFeedByte
  cases ha : l.active
  · by_cases hb : b = startChar <;> simp [hb]
  · by_cases hb : b = termChar
    · simp [hb]
    · by_cases hw : l.wrPtr < cap
      · simp [hb, hw]
      · have : cap ≤ l.wrPtr := by omega
        simp [hb, hw, this]

@[simp] theorem lineStart_lb (l : LineAsm) : (lineStart l).lb = l.lb := rfl
@[simp] theorem lineDiscard_lb (l : LineAsm) : (lineDiscard l).lb = l.lb := rfl
@[simp] theorem lineTerm_lb (l : LineAsm) : (lineTerm l).lb = l.lb := rfl
@[simp] theorem lineOverflow_lb (l : LineAsm) : (lineOverflow l).lb = l.lb := rfl

/-- Only the cell at `wr_ptr` can change (R23). -/
theorem lineFeedByte_read_other (cap : Nat) (b : Byte) (l : LineAsm) (i : Nat) (h : i ≠ l.wrPtr) :
    (lineFeedByte cap b l).lb.read lineUnlisted i = l.lb.read lineUnlisted i := by
  rcases lineFeedByte_cases cap b l with ⟨_, _, e⟩ | ⟨_, _, e⟩ | ⟨_, _, e⟩ | ⟨_, _, _, e⟩ | ⟨_, _, _, e⟩ <;> rw [e]
  · rfl
  · rfl
  · rfl
  · exact read_write_other _ _ _ _ _ h
  · rfl

/-- No path writes `LB` while no line is being received. -/
theorem lineFeedByte_lb_inactive (cap : Nat) (b : Byte) (l : LineAsm) (h : l.active = false) :
    (lineFeedByte cap b l).lb = l.lb := by
  rcases lineFeedByte_cases cap b l with ⟨_, _, e⟩ | ⟨_, _, e⟩ | ⟨h', _⟩ | ⟨h', _⟩ | ⟨h', _⟩
  · rw [e]; rfl
  · rw [e]; rfl
  · simp [h] at h'
  · simp [h] at h'
  · simp [h] at h'

/-- `LB` stays canonical. -/
theorem lineFeedByte_lb_wf (cap : Nat) (b : Byte) (l : LineAsm) (h : l.lb.wf lineUnlisted cap = true) :
    (lineFeedByte cap b l).lb.wf lineUnlisted cap = true := by
  rcases lineFeedByte_cases cap b l with ⟨_, _, e⟩ | ⟨_, _, e⟩ | ⟨_, _, e⟩ | ⟨_, _, hw, e⟩ | ⟨_, _, _, e⟩ <;> rw [e]
  · exact h
  · exact h
  · exact h
  · exact write_wf hw h
  · exact h

/-- A store, read back (R103). -/
theorem lineStore_lineByte {s : State} (b : Byte) (h : s.la.wrPtr < s.cfg.lineCap) (i : Nat) :
    (s.setLa (lineStore b s.la)).lineByte i = if i = s.la.wrPtr then some b else s.lineByte i := by
  by_cases hi : i = s.la.wrPtr
  · subst hi; simp [State.lineByte, h, lineStore]
  · simp [State.lineByte, lineStore, hi, read_write_other _ _ _ _ _ hi]

end Sys2Proof.Machine
end

