-- ==== Sys2Proof/Laws/Decoder.lean ====
section
/-! SUPPORT. What the decoder's shared operations can do: the branches of GET_TYPE, the field of GET_EXT, and the payload
write. -/

namespace Sys2Proof.Machine

/-- The branch on the type changes `dec_state` alone, and these are its four targets (R149 to R152). -/
theorem branchOnType_cases (t : Byte) (s : State) :
    (t = 0x00#8 ∧ s.rcd.length.toNat ≤ s.cfg.maxDataBytes ∧ s.rcd.length ≠ 0#8 ∧ branchOnType t s = goto .getData s) ∨
    (t = 0x00#8 ∧ s.rcd.length = 0#8 ∧ branchOnType t s = goto .getChecksum s) ∨
    (t = 0x01#8 ∧ branchOnType t s = goto .getChecksum s) ∨
    ((t = 0x02#8 ∨ t = 0x03#8 ∨ t = 0x04#8 ∨ t = 0x05#8) ∧ branchOnType t s = goto .getExt s) ∨
    (((t = 0x00#8 ∧ s.cfg.maxDataBytes < s.rcd.length.toNat) ∨
      (t ≠ 0x00#8 ∧ t ≠ 0x01#8 ∧ t ≠ 0x02#8 ∧ t ≠ 0x03#8 ∧ t ≠ 0x04#8 ∧ t ≠ 0x05#8)) ∧
      branchOnType t s = raiseParse s) := by
  by_cases h0 : t = 0x00#8
  · subst h0
    by_cases hl : s.rcd.length.toNat > s.cfg.maxDataBytes
    · simp [branchOnType, branchData, hl]
    · by_cases hz : s.rcd.length = 0#8
      · simp [branchOnType, branchData, hz]
      · have hle : s.rcd.length.toNat ≤ s.cfg.maxDataBytes := by omega
        simp [branchOnType, branchData, hl, hz, hle]
  · by_cases h1 : t = 0x01#8
    · subst h1; simp [branchOnType, branchEof]
    · by_cases hx : t = 0x02#8 ∨ t = 0x03#8 ∨ t = 0x04#8 ∨ t = 0x05#8
      · refine .inr (.inr (.inr (.inl ⟨hx, ?_⟩)))
        simp [branchOnType, h0, h1, hx, branchExt]
      · refine .inr (.inr (.inr (.inr ⟨.inr ?_, ?_⟩)))
        · simp only [not_or] at hx; exact ⟨h0, h1, hx⟩
        · simp [branchOnType, h0, h1, hx, branchUnknown]

/-- The branch is a `goto`: nothing else of the state changes. -/
theorem branchOnType_goto (t : Byte) (s : State) : ∃ k, branchOnType t s = goto k s := by
  rcases branchOnType_cases t s with ⟨_, _, _, e⟩ | ⟨_, _, e⟩ | ⟨_, e⟩ | ⟨_, e⟩ | ⟨_, e⟩
  · exact ⟨_, e⟩
  · exact ⟨_, e⟩
  · exact ⟨_, e⟩
  · exact ⟨_, e⟩
  · exact ⟨_, e⟩

/-- `EXT_BYTES` is defined for the address records, and is 2 or 4 there (R8). -/
theorem extBytes_cases (c : Config) (t : Byte) :
    ((t = 0x02#8 ∨ t = 0x03#8 ∨ t = 0x04#8 ∨ t = 0x05#8) ∧
      (c.extBytes t = some 2 ∨ c.extBytes t = some 4)) ∨
    (t ≠ 0x02#8 ∧ t ≠ 0x03#8 ∧ t ≠ 0x04#8 ∧ t ≠ 0x05#8 ∧ c.extBytes t = none) := by
  have hw : ∀ w : ExtWidth, w.bytes = 2 ∨ w.bytes = 4 := by intro w; cases w <;> simp [ExtWidth.bytes]
  by_cases h2 : t = 0x02#8
  · subst h2; simp [Config.extBytes, hw]
  · by_cases h3 : t = 0x03#8
    · subst h3; simp [Config.extBytes, hw]
    · by_cases h4 : t = 0x04#8
      · subst h4; simp [Config.extBytes, hw]
      · by_cases h5 : t = 0x05#8
        · subst h5; simp [Config.extBytes, hw]
        · simp [Config.extBytes, h2, h3, h4, h5]

/-- The address field goes to one of two registers, and to no other place (R157). -/
theorem writeExt_cases (t : Byte) (v : BitVec 32) (s : State) :
    ((t = 0x02#8 ∨ t = 0x04#8) ∧ writeExt t v s = s.setRcd { s.rcd with offset := v }) ∨
    (¬(t = 0x02#8 ∨ t = 0x04#8) ∧ writeExt t v s = s.setRcd { s.rcd with start := v }) := by
  by_cases h : t = 0x02#8 ∨ t = 0x04#8
  · exact .inl ⟨h, by simp [writeExt, h]⟩
  · exact .inr ⟨h, by simp [writeExt, h]⟩

/-- Everything a field of an address record can do (R157). -/
theorem extField_next {t : Byte} {s u : State} (h : extField t s = .next u) :
    ∃ n, s.cfg.extBytes t = some n ∧
      ((s.dec.rdPtr + 2 * n > s.la.lineLen ∧ u = raiseParse s) ∨
       (s.dec.rdPtr + 2 * n ≤ s.la.lineLen ∧ u = finish .invalidDigit s) ∨
       (∃ bs, s.dec.rdPtr + 2 * n ≤ s.la.lineLen ∧ bs.length = n ∧ readField n s = .bytes bs ∧
          u = goto .getChecksum (advance (2 * n) (accumulate bs (writeExt t (BitVec.ofNat 32 (be bs)) s))))) := by
  unfold extField at h
  cases hx : s.cfg.extBytes t with
  | none => simp [hx] at h
  | some n =>
    simp only [hx] at h
    refine ⟨n, rfl, ?_⟩
    rcases withField_next h with ⟨h1, h2⟩ | ⟨h1, h2⟩ | ⟨bs, h1, h2, h3, h4⟩
    · exact .inl ⟨h1, h2⟩
    · exact .inr (.inl ⟨h1, h2⟩)
    · refine .inr (.inr ⟨bs, h1, h2, h3, ?_⟩)
      simpa using h4.symm

/-- A payload write, read back (R155). -/
theorem payWrite_payByte {s : State} (k : Nat) (b : Byte) (h : k < s.cfg.maxDataBytes) (r : Record)
    (hr : r.pay = s.rcd.pay.write payUnlisted k b) (i : Nat) :
    (s.setRcd r).payByte i = if i = k then some b else s.payByte i := by
  by_cases hi : i = k
  · subst hi; simp [State.payByte, h, hr]
  · simp [State.payByte, hr, hi, read_write_other _ _ _ _ _ hi]

end Sys2Proof.Machine
end

