-- ==== Sys2Proof/Laws/Cycle.lean ====
section
/-! SUPPORT. What a cycle can do: which of the two halves runs, and how their writes land together (R56, R180). -/

namespace Sys2Proof.Machine

@[simp] theorem joinCycle_next (d c : State) :
    joinCycle (.next d) (.next c) = .next ((c.setDec d.dec).setRcd d.rcd) := rfl

/-- Two halves that join in a next state both answered one (R56). -/
theorem joinCycle_eq_next {a b : Host.Outcome State Fault Refusal} {t : State} (h : joinCycle a b = .next t) :
    ∃ d c, a = .next d ∧ b = .next c ∧ t = (c.setDec d.dec).setRcd d.rcd := by
  cases a with
  | next d =>
    cases b with
    | next c => exact ⟨d, c, rfl, rfl, by simpa [joinCycle] using h.symm⟩
    | fault f => simp [joinCycle] at h
    | refused r => simp [joinCycle] at h
  | fault f => simp [joinCycle] at h
  | refused r => simp [joinCycle] at h

/-- A running pass takes its step beside any command but INIT (R140, R180). -/
theorem commandCycle_busy {i : Instr} {s : State} (hb : s.dec.status = .busy) (hi : i ≠ .init) :
    commandCycle i s = joinCycle (exec (decStateInstr s.dec.state) s) (exec i s) := by
  simp [commandCycle, stepsDecoder, hb, hi]

/-- With no pass running, the command alone acts (R140). -/
theorem commandCycle_not_busy {i : Instr} {s : State} (hb : s.dec.status ≠ .busy) :
    commandCycle i s = exec i s := by
  simp [commandCycle, stepsDecoder, hb]

/-- INIT suppresses the decoder step of its cycle (R180, R203). -/
theorem commandCycle_init (s : State) : commandCycle .init s = exec .init s := by
  simp [commandCycle, stepsDecoder]

/-- Everything a command's cycle can do. -/
theorem commandCycle_next {i : Instr} {s t : State} (h : commandCycle i s = .next t) :
    ((s.dec.status ≠ .busy ∨ i = .init) ∧ exec i s = .next t) ∨
    (s.dec.status = .busy ∧ i ≠ .init ∧
      ∃ d c, exec (decStateInstr s.dec.state) s = .next d ∧ exec i s = .next c ∧
        t = (c.setDec d.dec).setRcd d.rcd) := by
  by_cases hb : s.dec.status = .busy
  · by_cases hi : i = .init
    · subst hi
      rw [commandCycle_init] at h
      exact .inl ⟨.inr rfl, h⟩
    · rw [commandCycle_busy hb hi] at h
      exact .inr ⟨hb, hi, joinCycle_eq_next h⟩
  · rw [commandCycle_not_busy hb] at h
    exact .inl ⟨.inl hb, h⟩

/-- Reset overrides everything in its cycle (R203, R231). -/
@[simp] theorem cycle_reset (w : CmdWord) (s : State) :
    cycle { rst := true, cmd := w } s = .next (applyReset s) := rfl

/-- A cycle without reset runs its command (R180). -/
@[simp] theorem cycle_command (w : CmdWord) (s : State) :
    cycle { rst := false, cmd := w } s = commandCycle (decodeCommand w) s := rfl

/-- The four commands are all there is (R71, R73). -/
theorem decodeCommand_cases (w : CmdWord) :
    decodeCommand w = .nop ∨ decodeCommand w = .feed (cmdData w) ∨ decodeCommand w = .decode ∨
      decodeCommand w = .init := by
  unfold decodeCommand
  split <;> simp

/-- A step with inputs driven samples the first of them. -/
theorem step_of_inputs {s : State} {x : CycleInput} {xs : List CycleInput} (h : s.inputs = x :: xs) :
    step s = cycle x (s.setInputs xs) := by
  simp [step, nextInput, sampled, h]

/-- A step with nothing driven is a NOP cycle (R70). -/
theorem step_of_no_inputs {s : State} (h : s.inputs = []) : step s = commandCycle .nop s := by
  have hs : s.setInputs [] = s := by cases s; simp_all [State.setInputs]
  simp only [step, nextInput, sampled, h, List.tail_nil, hs]
  rfl

end Sys2Proof.Machine
end

