-- ==== Sys2Proof/Laws/PerInstr.lean ====
section
/-! SUPPORT. Per instruction: the code the encoder writes lies in the row of spec/opcode_table.json that the constructor
stands for, in the row's own format. -/

namespace Sys2Proof.Laws

/-- The four formats of the opcode table. -/
inductive TableFormat where
  | cmd
  | laByte
  | decState
  | recType
deriving DecidableEq, Repr

/-- A row of the opcode table: its format, its mask and its match. A row that says "any byte other than …" has mask 0. -/
structure TableRow where
  format : TableFormat
  mask : Nat
  pattern : Nat
deriving DecidableEq, Repr

/-- A code lies in a row: same format, and the masked bits are the row's. -/
def codeInRow (c : CodeWord) (r : TableRow) : Bool :=
  match c with
  | .cmd w => decide (r.format = .cmd) && (w &&& BitVec.ofNat 10 r.mask == BitVec.ofNat 10 r.pattern)
  | .laByte _ _ b => decide (r.format = .laByte) && (b &&& BitVec.ofNat 8 r.mask == BitVec.ofNat 8 r.pattern)
  | .decState k => decide (r.format = .decState) && (k &&& BitVec.ofNat 4 r.mask == BitVec.ofNat 4 r.pattern)
  | .recType tt => decide (r.format = .recType) && (tt &&& BitVec.ofNat 8 r.mask == BitVec.ofNat 8 r.pattern)

/-- The row of spec/opcode_table.json a constructor stands for. -/
def tableRow : Instr → TableRow
  | .nop => ⟨.cmd, 0x300, 0x000⟩
  | .feed _ => ⟨.cmd, 0x300, 0x100⟩
  | .decode => ⟨.cmd, 0x300, 0x200⟩
  | .init => ⟨.cmd, 0x300, 0x300⟩
  | .laStart => ⟨.laByte, 0xFF, 0x3A⟩
  | .laDiscard _ => ⟨.laByte, 0x00, 0x00⟩
  | .laTerm => ⟨.laByte, 0xFF, 0x0D⟩
  | .laStore _ => ⟨.laByte, 0x00, 0x00⟩
  | .laOverflow _ => ⟨.laByte, 0x00, 0x00⟩
  | .decInit => ⟨.decState, 0xF, 0x0⟩
  | .decGetLength => ⟨.decState, 0xF, 0x1⟩
  | .decGetAddress => ⟨.decState, 0xF, 0x2⟩
  | .decGetType => ⟨.decState, 0xF, 0x3⟩
  | .decGetData => ⟨.decState, 0xF, 0x4⟩
  | .decGetExt => ⟨.decState, 0xF, 0x5⟩
  | .decGetChecksum => ⟨.decState, 0xF, 0x6⟩
  | .decError => ⟨.decState, 0xF, 0x7⟩
  | .decDone => ⟨.decState, 0xF, 0x8⟩
  | .recData => ⟨.recType, 0xFF, 0x00⟩
  | .recEof => ⟨.recType, 0xFF, 0x01⟩
  | .recExtSegmentAddress => ⟨.recType, 0xFF, 0x02⟩
  | .recStartSegmentAddress => ⟨.recType, 0xFF, 0x03⟩
  | .recExtLinearAddress => ⟨.recType, 0xFF, 0x04⟩
  | .recStartLinearAddress => ⟨.recType, 0xFF, 0x05⟩
  | .recUnknown06 _ => ⟨.recType, 0xFE, 0x06⟩
  | .recUnknown08 _ => ⟨.recType, 0xF8, 0x08⟩
  | .recUnknown10 _ => ⟨.recType, 0xF0, 0x10⟩
  | .recUnknown20 _ => ⟨.recType, 0xE0, 0x20⟩
  | .recUnknown40 _ => ⟨.recType, 0xC0, 0x40⟩
  | .recUnknown80 _ => ⟨.recType, 0x80, 0x80⟩

/-- What is stated of an instruction: where it is well formed, its code lies in its row. -/
def RowPattern.Statement (i : Instr) : Prop := WellFormed i = true → codeInRow (encode i) (tableRow i) = true

/-- The command word of a FEED has the operation code 01, whatever the byte (R71). -/
theorem feed_in_row (b : Byte) : codeInRow (.cmd (cmdWord 1#2 b)) ⟨.cmd, 0x300, 0x100⟩ = true := by
  revert b; decide

theorem RowPattern.nop : RowPattern.Statement (.nop) := fun _ => by decide

theorem RowPattern.feed (b : Byte) : RowPattern.Statement (.feed b) := fun _ => feed_in_row b

theorem RowPattern.decode : RowPattern.Statement (.decode) := fun _ => by decide

theorem RowPattern.init : RowPattern.Statement (.init) := fun _ => by decide

theorem RowPattern.laStart : RowPattern.Statement (.laStart) := fun _ => by decide

theorem RowPattern.laDiscard (b : Byte) : RowPattern.Statement (.laDiscard b) := by
  intro _; simp [encode, tableRow, codeInRow]

theorem RowPattern.laTerm : RowPattern.Statement (.laTerm) := fun _ => by decide

theorem RowPattern.laStore (b : Byte) : RowPattern.Statement (.laStore b) := by
  intro _; simp [encode, tableRow, codeInRow]

theorem RowPattern.laOverflow (b : Byte) : RowPattern.Statement (.laOverflow b) := by
  intro _; simp [encode, tableRow, codeInRow]

theorem RowPattern.decInit : RowPattern.Statement (.decInit) := fun _ => by decide

theorem RowPattern.decGetLength : RowPattern.Statement (.decGetLength) := fun _ => by decide

theorem RowPattern.decGetAddress : RowPattern.Statement (.decGetAddress) := fun _ => by decide

theorem RowPattern.decGetType : RowPattern.Statement (.decGetType) := fun _ => by decide

theorem RowPattern.decGetData : RowPattern.Statement (.decGetData) := fun _ => by decide

theorem RowPattern.decGetExt : RowPattern.Statement (.decGetExt) := fun _ => by decide

theorem RowPattern.decGetChecksum : RowPattern.Statement (.decGetChecksum) := fun _ => by decide

theorem RowPattern.decError : RowPattern.Statement (.decError) := fun _ => by decide

theorem RowPattern.decDone : RowPattern.Statement (.decDone) := fun _ => by decide

theorem RowPattern.recData : RowPattern.Statement (.recData) := fun _ => by decide

theorem RowPattern.recEof : RowPattern.Statement (.recEof) := fun _ => by decide

theorem RowPattern.recExtSegmentAddress : RowPattern.Statement (.recExtSegmentAddress) := fun _ => by decide

theorem RowPattern.recStartSegmentAddress : RowPattern.Statement (.recStartSegmentAddress) := fun _ => by decide

theorem RowPattern.recExtLinearAddress : RowPattern.Statement (.recExtLinearAddress) := fun _ => by decide

theorem RowPattern.recStartLinearAddress : RowPattern.Statement (.recStartLinearAddress) := fun _ => by decide

theorem RowPattern.recUnknown06 (tt : Byte) : RowPattern.Statement (.recUnknown06 tt) := fun h => h

theorem RowPattern.recUnknown08 (tt : Byte) : RowPattern.Statement (.recUnknown08 tt) := fun h => h

theorem RowPattern.recUnknown10 (tt : Byte) : RowPattern.Statement (.recUnknown10 tt) := fun h => h

theorem RowPattern.recUnknown20 (tt : Byte) : RowPattern.Statement (.recUnknown20 tt) := fun h => h

theorem RowPattern.recUnknown40 (tt : Byte) : RowPattern.Statement (.recUnknown40 tt) := fun h => h

theorem RowPattern.recUnknown80 (tt : Byte) : RowPattern.Statement (.recUnknown80 tt) := fun h => h

end Sys2Proof.Laws
end

