-- ==== Sys2Proof/Tests/Slice0.lean ====
section
/-! SUPPORT. The model's own tests: the well-formedness smoke, words written out from the spec's encodings, one or two steps
per instruction with the results of 95_test_vectors.md (its section is named at each), and for every statement with
hypotheses a state that meets them. -/

namespace Sys2Proof.Tests

open Sys2Proof Sys2Proof.Machine

/-! ### Helpers -/

/-- Cells from index `i` on. -/
def cellsFrom : Nat → List Byte → List Host.Cell
  | _, [] => []
  | i, b :: r => (i, b) :: cellsFrom (i + 1) r

/-- `LB` after a line of these characters. -/
def lineOf (text : List Byte) : LineAsm :=
  { LineAsm.reset with lb := ⟨cellsFrom 0 text⟩, lineLen := text.length, feedStatus := .lineComplete }

/-- A pass over a completed line, standing in `k` at the character `rd`. -/
def passAt (text : List Byte) (k : DecState) (rd : Nat) : State :=
  { State.reset with
    la := lineOf text
    dec := { state := k, status := .busy, rdPtr := rd, didx := 0 } }

/-- The same state with other record registers. -/
def withRecord (r : Record) (s : State) : State := s.setRcd r

/-- A line being received, `wr` characters so far. -/
def receiving (wr : Nat) : State :=
  { State.reset with la := { LineAsm.reset with active := true, wrPtr := wr } }

/-- The state an outcome holds. -/
def next? : Host.Outcome State Fault Refusal → Option State
  | .next s => some s
  | .fault _ => none
  | .refused _ => none

/-- `LL` and `AAAA` of the Data line of 95 section 1.1: `100100`. -/
def dataHead : List Byte := [0x31#8, 0x30#8, 0x30#8, 0x31#8, 0x30#8, 0x30#8]

/-- The End Of File line of 95 section 1.2: `00000001FF`. -/
def eofLine : List Byte :=
  [0x30#8, 0x30#8, 0x30#8, 0x30#8, 0x30#8, 0x30#8, 0x30#8, 0x31#8, 0x46#8, 0x46#8]

/-- The Extended Segment Address line of 95 section 2.2: `020000021200EA`. -/
def segLine : List Byte :=
  [0x30#8, 0x32#8, 0x30#8, 0x30#8, 0x30#8, 0x30#8, 0x30#8, 0x32#8, 0x31#8, 0x32#8, 0x30#8, 0x30#8, 0x45#8, 0x41#8]

/-! ### Well-formedness: each check refuses a term -/

theorem test_wf_discard_refuses_start : WellFormed (.laDiscard 0x3A#8) = false := by decide
theorem test_wf_store_refuses_cr : WellFormed (.laStore 0x0D#8) = false := by decide
theorem test_wf_overflow_refuses_cr : WellFormed (.laOverflow 0x0D#8) = false := by decide
theorem test_wf_unknown06_refuses_05 : WellFormed (.recUnknown06 0x05#8) = false := by decide
theorem test_wf_unknown08_refuses_10 : WellFormed (.recUnknown08 0x10#8) = false := by decide
theorem test_wf_unknown10_refuses_20 : WellFormed (.recUnknown10 0x20#8) = false := by decide
theorem test_wf_unknown20_refuses_40 : WellFormed (.recUnknown20 0x40#8) = false := by decide
theorem test_wf_unknown40_refuses_80 : WellFormed (.recUnknown40 0x80#8) = false := by decide
theorem test_wf_unknown80_refuses_7F : WellFormed (.recUnknown80 0x7F#8) = false := by decide

/-! ### Decoding: codes written out from R71, R80, R26, R76 and R77 -/

theorem test_decode_nop : decode (.cmd 0b0000000000#10) = .ok .nop := by decide
theorem test_decode_nop_ignores_data : decode (.cmd 0b0011111111#10) = .ok .nop := by decide
theorem test_decode_feed : decode (.cmd 0b0101100001#10) = .ok (.feed 0x61#8) := by decide
theorem test_decode_decode : decode (.cmd 0b1000000000#10) = .ok .decode := by decide
theorem test_decode_decode_ignores_data : decode (.cmd 0b1011111111#10) = .ok .decode := by decide
theorem test_decode_init : decode (.cmd 0b1111111111#10) = .ok .init := by decide
theorem test_decode_la_start : decode (.laByte false false 0x3A#8) = .ok .laStart := by decide
theorem test_decode_la_discard_cr : decode (.laByte false true 0x0D#8) = .ok (.laDiscard 0x0D#8) := by decide
theorem test_decode_la_term_when_full : decode (.laByte true true 0x0D#8) = .ok .laTerm := by decide
theorem test_decode_la_store_colon : decode (.laByte true false 0x3A#8) = .ok (.laStore 0x3A#8) := by decide
theorem test_decode_la_overflow : decode (.laByte true true 0x30#8) = .ok (.laOverflow 0x30#8) := by decide
theorem test_decode_dec_states :
    ([0#4, 1#4, 2#4, 3#4, 4#4, 5#4, 6#4, 7#4, 8#4].map fun c => decode (.decState c)) =
      [.ok .decInit, .ok .decGetLength, .ok .decGetAddress, .ok .decGetType, .ok .decGetData, .ok .decGetExt,
       .ok .decGetChecksum, .ok .decError, .ok .decDone] := by decide
theorem test_decode_reserved_state : decode (.decState 9#4) = .rejected (.reservedDecState 9#4) := by decide
theorem test_decode_rec_types :
    ([0x00#8, 0x01#8, 0x02#8, 0x03#8, 0x04#8, 0x05#8].map fun c => decode (.recType c)) =
      [.ok .recData, .ok .recEof, .ok .recExtSegmentAddress, .ok .recStartSegmentAddress,
       .ok .recExtLinearAddress, .ok .recStartLinearAddress] := by decide
theorem test_decode_unknown_classes_low :
    ([0x06#8, 0x08#8, 0x10#8, 0x20#8, 0x40#8, 0x80#8].map fun c => decode (.recType c)) =
      [.ok (.recUnknown06 0x06#8), .ok (.recUnknown08 0x08#8), .ok (.recUnknown10 0x10#8),
       .ok (.recUnknown20 0x20#8), .ok (.recUnknown40 0x40#8), .ok (.recUnknown80 0x80#8)] := by decide
theorem test_decode_unknown_classes_high :
    ([0x07#8, 0x0F#8, 0x1F#8, 0x3F#8, 0x7F#8, 0xFF#8].map fun c => decode (.recType c)) =
      [.ok (.recUnknown06 0x07#8), .ok (.recUnknown08 0x0F#8), .ok (.recUnknown10 0x1F#8),
       .ok (.recUnknown20 0x3F#8), .ok (.recUnknown40 0x7F#8), .ok (.recUnknown80 0xFF#8)] := by decide
theorem test_table_word_feed : decodeTableWord 16 0x13A = some (.feed 0x3A#8) := by decide
theorem test_table_word_la_term : decodeTableWord 8 0x0D = some .laTerm := by decide
theorem test_table_word_runs : (next? (step (State.reset.withFetchWord 8 0x80))).map (fun t => (t.dec.state, t.rcd.type)) =
    some (.error, 0x80#8) := by decide

/-! ### Conversion and checksum (95 section 2.1, R123 to R125) -/

theorem test_hexval_digits :
    [hexval 0x30#8, hexval 0x39#8, hexval 0x41#8, hexval 0x46#8, hexval 0x61#8, hexval 0x66#8] =
      [some 0#4, some 9#4, some 10#4, some 15#4, some 10#4, some 15#4] := by decide
theorem test_hexval_invalid :
    ([0x2F#8, 0x3A#8, 0x40#8, 0x47#8, 0x60#8, 0x67#8, 0x0D#8, 0x0A#8, 0x00#8, 0xFF#8].map hexval) =
      List.replicate 10 none := by decide
theorem test_pairval : [pairval 0x37#8 0x61#8, pairval 0x46#8 0x66#8, pairval 0x30#8 0x67#8] =
    [some 0x7A#8, some 0xFF#8, none] := by decide
theorem test_be : (be [0x12#8, 0x00#8], be [0x12#8, 0x34#8, 0x56#8, 0x78#8]) = (0x1200, 0x12345678) := by decide
theorem test_sum8 : (sum8 [0x10#8, 0x01#8, 0x00#8, 0x00#8], sum8 [0xFF#8, 0x01#8]) = (0x11#8, 0x00#8) := by decide
theorem test_neg8 : [neg8 0x00#8, neg8 0x01#8, neg8 0x80#8, neg8 0xC0#8] = [0x00#8, 0xFF#8, 0x80#8, 0x40#8] := by decide

/-! ### One step each -/

/-- 95 section 3.2, row 9: NOP with its data bits set changes nothing at reset. -/
theorem test_nop_step : next? (step (State.reset.withFetchWord 16 0x0FF)) = some State.reset := by decide

/-- R101, its example. -/
theorem test_feed_start : (next? (exec (.feed 0x3A#8) State.reset)).map (·.la) =
    some { LineAsm.reset with active := true } := by decide

/-- R103, its example: `FEED '1'` at `wr_ptr = 3`. -/
theorem test_feed_store : (next? (exec (.feed 0x31#8) (receiving 3))).map (fun t => (t.lineByte 3, t.la.wrPtr)) =
    some (some 0x31#8, 4) := by decide

/-- R182, its example. -/
theorem test_decode_starts : (next? (exec .decode State.reset)).map (fun t => (t.dec.state, t.dec.status)) =
    some (.init, .busy) := by decide

/-- R242: DECODE during a pass is ignored. -/
theorem test_decode_ignored : next? (exec .decode (passAt eofLine .getType 6)) = some (passAt eofLine .getType 6) := by decide

/-- R183, its example: an INIT in a line at `wr_ptr = 7`. -/
theorem test_init : (next? (exec .init (receiving 7))).map (fun t => (t.la.active, t.la.wrPtr, t.dec.status)) =
    some (false, 0, .idle) := by decide

/-- 95 section 3.1, row 1: the completed line is given up. -/
theorem test_la_start : (next? (exec .laStart (passAt eofLine .done 10))).map (·.la.lineLen) = some 0 := by decide

/-- 95 section 3.1, row 3: a CR while inactive is noise. -/
theorem test_la_discard : (next? (exec (.feed 0x0D#8) (passAt eofLine .done 10))).map
    (fun t => (t.la.lineLen, t.la.feedStatus)) = some (10, .busy) := by decide

/-- 95 section 3.1, row 9: CR is tested before capacity. -/
theorem test_la_term_full : (next? (exec (.feed 0x0D#8) (receiving 42))).map
    (fun t => (t.la.active, t.la.wrPtr, t.la.lineLen, t.la.feedStatus)) = some (false, 0, 42, .lineComplete) := by decide

/-- 95 section 3.1, row 8: the last cell. -/
theorem test_la_store_last : (next? (exec (.laStore 0x46#8) (receiving 41))).map
    (fun t => (t.lineByte 41, t.la.wrPtr, t.la.active)) = some (some 0x46#8, 42, true) := by decide

/-- 95 section 3.1, row 12: a start marker overflows a full buffer like any character. -/
theorem test_la_overflow : (next? (exec (.feed 0x3A#8) (receiving 42))).map
    (fun t => (t.la.active, t.la.wrPtr, t.la.lineLen, t.la.feedStatus)) = some (false, 0, 0, .overflow) := by decide

/-- R145: the last pass's record goes, `PAY` stays. -/
theorem test_dec_init : (next? (exec .decInit (withRecord
      { Record.reset with length := 0x10#8, valid := true, pay := ⟨[(0, 0x21#8)]⟩ } (passAt eofLine .init 10)))).map
    (fun t => (t.rcd.length, t.rcd.valid, t.payByte 0, t.dec.state)) =
    some (0x00#8, false, some 0x21#8, .getLength) := by decide

/-- R146, its example. -/
theorem test_dec_get_length : (next? (exec .decGetLength (passAt dataHead .getLength 0))).map
    (fun t => (t.rcd.length, t.rcd.checksum, t.dec.rdPtr, t.dec.state)) = some (0x10#8, 0x10#8, 2, .getAddress) := by decide

/-- 95 section 2.7: `0G`. -/
theorem test_dec_get_length_bad_digit : (next? (exec .decGetLength (passAt [0x30#8, 0x47#8] .getLength 0))).map
    (fun t => (t.dec.status, t.dec.state, t.dec.rdPtr)) = some (.invalidDigit, .done, 0) := by decide

/-- R147, its example. -/
theorem test_dec_get_address : (next? (exec .decGetAddress (withRecord
      { Record.reset with length := 0x10#8, checksum := 0x10#8 } (passAt dataHead .getAddress 2)))).map
    (fun t => (t.rcd.address, t.rcd.checksum, t.dec.rdPtr, t.dec.state)) = some (0x0100#16, 0x11#8, 6, .getType) := by decide

/-- 95 section 2.7: `000G` is too short, and the bound check wins over the bad digit. -/
theorem test_dec_get_address_short : (next? (exec .decGetAddress
      (passAt [0x30#8, 0x30#8, 0x30#8, 0x47#8] .getAddress 2))).map
    (fun t => (t.dec.status, t.dec.state)) = some (.busy, .error) := by decide

/-- 95 section 1.2, step 4. -/
theorem test_dec_get_type_eof : (next? (exec .decGetType (passAt eofLine .getType 6))).map
    (fun t => (t.rcd.type, t.rcd.checksum, t.dec.rdPtr, t.dec.state)) = some (0x01#8, 0x01#8, 8, .getChecksum) := by decide

/-- 95 section 2.4: a Data length of 0x11 goes to ERROR, and the type's writes stand. -/
theorem test_dec_get_type_oversized : (next? (exec .decGetType (withRecord
      { Record.reset with length := 0x11#8, checksum := 0x11#8 } (passAt [0x30#8, 0x30#8] .getType 0)))).map
    (fun t => (t.rcd.checksum, t.dec.rdPtr, t.dec.state)) = some (0x11#8, 2, .error) := by decide

/-- R155, its example: the characters `21`. -/
theorem test_dec_get_data : (next? (exec .decGetData (withRecord
      { Record.reset with length := 0x10#8, checksum := 0x11#8 } (passAt [0x32#8, 0x31#8] .getData 0)))).map
    (fun t => (t.payByte 0, t.rcd.checksum, t.dec.rdPtr, t.dec.didx, t.dec.state)) =
    some (some 0x21#8, 0x32#8, 2, 1, .getData) := by decide

/-- 95 section 2.2, step 7: the last payload byte goes on to the checksum. -/
theorem test_dec_get_data_last : (next? (exec .decGetData (withRecord
      { Record.reset with length := 0x01#8, checksum := 0x68#8 } (passAt [0x37#8, 0x41#8] .getData 0)))).map
    (fun t => (t.payByte 0, t.rcd.checksum, t.dec.state)) = some (some 0x7A#8, 0xE2#8, .getChecksum) := by decide

/-- 95 section 2.2, the second table, step 5. -/
theorem test_dec_get_ext : (next? (exec .decGetExt (withRecord
      { Record.reset with length := 0x02#8, type := 0x02#8, checksum := 0x04#8 } (passAt segLine .getExt 8)))).map
    (fun t => (t.rcd.offset, t.rcd.start, t.rcd.checksum, t.dec.rdPtr, t.dec.state)) =
    some (0x00001200#32, 0#32, 0x16#8, 12, .getChecksum) := by decide

/-- 95 section 2.6: with the published widths a type 03 field has four bytes. -/
theorem test_dec_get_ext_published : (next? (exec .decGetExt
      { withRecord { Record.reset with type := 0x03#8, checksum := 0x07#8 }
          (passAt [0x30#8, 0x30#8, 0x30#8, 0x30#8, 0x33#8, 0x38#8, 0x30#8, 0x30#8] .getExt 0) with
        cfg := Config.published })).map
    (fun t => (t.rcd.start, t.rcd.checksum, t.dec.rdPtr)) = some (0x00003800#32, 0x3F#8, 8) := by decide

/-- 95 section 1.2, step 5. -/
theorem test_dec_get_checksum : (next? (exec .decGetChecksum (withRecord
      { Record.reset with type := 0x01#8, checksum := 0x01#8 } (passAt eofLine .getChecksum 8)))).map
    (fun t => (t.rcd.valid, t.dec.status, t.dec.state, t.dec.rdPtr)) = some (true, .successful, .done, 10) := by decide

/-- 95 section 1.4: `FE` for `FF`. -/
theorem test_dec_get_checksum_mismatch : (next? (exec .decGetChecksum (withRecord
      { Record.reset with checksum := 0x01#8 } (passAt [0x46#8, 0x45#8] .getChecksum 0)))).map
    (fun t => (t.rcd.valid, t.dec.status, t.rcd.checksum)) = some (false, .checksumError, 0x01#8) := by decide

/-- R156, its example. -/
theorem test_dec_error : (next? (exec .decError (passAt [] .error 0))).map (fun t => (t.dec.state, t.dec.status)) =
    some (.done, .parseError) := by decide

/-- R163. -/
theorem test_dec_done : next? (exec .decDone (passAt eofLine .done 10)) = some (passAt eofLine .done 10) := by decide

/-- R149: a Data length of 3 goes to GET_DATA. -/
theorem test_rec_data : (next? (exec .recData (withRecord { Record.reset with length := 0x03#8 }
    (passAt eofLine .getType 8)))).map (·.dec.state) = some .getData := by decide

/-- R150: the length does not matter to End Of File. -/
theorem test_rec_eof : (next? (exec .recEof (withRecord { Record.reset with length := 0x20#8 }
    (passAt eofLine .getType 8)))).map (·.dec.state) = some .getChecksum := by decide

/-- R151: the four address records branch to GET_EXT. -/
theorem test_rec_ext_branch :
    ([Instr.recExtSegmentAddress, .recStartSegmentAddress, .recExtLinearAddress, .recStartLinearAddress].map fun i =>
      (next? (exec i (passAt segLine .getType 8))).map (·.dec.state)) = List.replicate 4 (some .getExt) := by decide

/-- R158 and R159: two bytes by default, to `rec_offset` and to `rec_start`. -/
theorem test_rec_segment_fields :
    ([Instr.recExtSegmentAddress, .recStartSegmentAddress].map fun i =>
      (next? (exec i (passAt segLine .getExt 8))).map fun t => (t.rcd.offset, t.rcd.start)) =
    [some (0x1200#32, 0#32), some (0#32, 0x1200#32)] := by decide

/-- R160 and R161: four bytes by default, to `rec_offset` and to `rec_start`; the characters `08000000`. -/
theorem test_rec_linear_fields :
    ([Instr.recExtLinearAddress, .recStartLinearAddress].map fun i =>
      (next? (exec i (passAt [0x30#8, 0x38#8, 0x30#8, 0x30#8, 0x30#8, 0x30#8, 0x30#8, 0x30#8] .getExt 0))).map
        fun t => (t.rcd.offset, t.rcd.start)) =
    [some (0x08000000#32, 0#32), some (0#32, 0x08000000#32)] := by decide

/-- R152: the unknown types go to ERROR. -/
theorem test_rec_unknown :
    ([Instr.recUnknown06 0x06#8, .recUnknown08 0x0F#8, .recUnknown10 0x10#8, .recUnknown20 0x3F#8, .recUnknown40 0x40#8,
      .recUnknown80 0xFF#8].map fun i => (next? (exec i (passAt eofLine .getType 8))).map (·.dec.state)) =
    List.replicate 6 (some .error) := by decide

/-- 95 section 4.4, cycle 22: the FEED of a start marker gives up the line, and the GET_ADDRESS step of the same cycle
still reads the old `line_len`. -/
theorem test_cycle_reads_old_line_len : (next? (commandCycle (.feed 0x3A#8) (passAt eofLine .getAddress 2))).map
    (fun t => (t.la.lineLen, t.dec.state, t.dec.rdPtr)) = some (0, .getType, 6) := by decide

/-- R203: INIT suppresses the decoder step of its cycle. -/
theorem test_cycle_init_suppresses_step : (next? (commandCycle .init (passAt dataHead .getLength 0))).map
    (fun t => (t.rcd.length, t.dec.state, t.dec.status)) = some (0x00#8, .init, .idle) := by decide

/-- R231: reset overrides the command; R233: it does not write `LB`. -/
theorem test_cycle_reset : next? (cycle { rst := true, cmd := 0x13A#10 } (passAt dataHead .getLength 0)) =
    some { State.reset with la := { LineAsm.reset with lb := (passAt dataHead .getLength 0).la.lb } } := by decide

/-- R83: the text of a trace line, and a quoted semicolon. -/
theorem test_parse_lines :
    [parseLine ['F', 'E', 'E', 'D', ' ', '0', 'x', '3', 'A'], parseLine ['F', 'E', 'E', 'D', ' ', 'C', 'R', ' ', ';', 'x'],
     parseLine ['F', 'E', 'E', 'D', ' ', '\'', ';', '\''], parseLine ['I', 'D', 'L', 'E', ' ', '1', '2']] =
    [some (.feed 0x3A#8), some (.feed 0x0D#8), some (.feed 0x3B#8), some (.idle 12)] := by decide

/-! ### States that meet the statements' hypotheses -/

/-- An idle block with the completed End Of File line. -/
def idleWithLine : State := { State.reset with la := lineOf eofLine }

/-- The Line Assembler of a completed End Of File line meets its invariant. -/
theorem eofLine_lineInv : LineInv Config.default (lineOf eofLine) where
  wrPtr_le := by decide
  wrPtr_inactive := by decide
  lineLen_le := by decide
  lineLen_inactive := by decide
  line_written := by decide
  partial_written := by decide
  lb_wf := by decide

theorem witness_inv_idle : Inv idleWithLine where
  line := eofLine_lineInv
  decoder :=
    { rdPtr_le := by decide
      didx_le := by decide
      status_fits := rfl
      valid_fits := trivial
      header_didx := by decide
      data_bounds := by decide
      ext_type := by decide
      pay_wf := by decide }

/-- A pass over that line in GET_LENGTH meets the invariant. -/
theorem witness_inv_busy : Inv (passAt eofLine .getLength 0) where
  line := eofLine_lineInv
  decoder :=
    { rdPtr_le := by decide
      didx_le := by decide
      status_fits := by simp [statusFits, passAt]
      valid_fits := fun _ => rfl
      header_didx := by decide
      data_bounds := by decide
      ext_type := by decide
      pay_wf := by decide }

/-- The same pass after a start marker was fed: no completed line stands. -/
def passWithoutLine : State :=
  { passAt eofLine .getLength 0 with la := { lineOf eofLine with active := true, lineLen := 0 } }

theorem witness_inv_busy_without_line :
    Inv passWithoutLine ∧ passWithoutLine.dec.status = .busy ∧ passWithoutLine.la.lineLen = 0 ∧
      (fieldWidth passWithoutLine passWithoutLine.dec.state).isSome :=
  ⟨{ line :=
      { wrPtr_le := by decide
        wrPtr_inactive := by decide
        lineLen_le := by decide
        lineLen_inactive := by decide
        line_written := by decide
        partial_written := by decide
        lb_wf := by decide }
     decoder := witness_inv_busy.decoder }, rfl, rfl, rfl⟩

/-- The two characters at 0 stand at the cursor, as a field of one byte. -/
theorem fieldChars_two {s : State} {a b : Byte} (hb : s.dec.rdPtr + 2 ≤ s.la.lineLen)
    (h0 : s.lineByte s.dec.rdPtr = some a) (h1 : s.lineByte (s.dec.rdPtr + 1) = some b) : FieldChars 1 s [a, b] := by
  refine ⟨hb, rfl, fun j hj => ?_⟩
  match j, hj with
  | 0, _ => simpa using h0
  | 1, _ => simpa using h1

theorem witness_FeedRunsTheSelectedPath : State.reset.la.wrPtr ≤ State.reset.cfg.lineCap := by decide
theorem witness_StartMarkerStartsLine : State.reset.la.active = false := rfl
theorem witness_NoiseIsDiscarded : State.reset.la.active = false ∧ (0x0A#8 : Byte) ≠ 0x3A#8 := by decide
theorem witness_TerminatorCompletesLine : (receiving 42).la.active = true := rfl
theorem witness_CharacterIsStored :
    (receiving 41).la.active = true ∧ (0x3A#8 : Byte) ≠ 0x0D#8 ∧ (receiving 41).la.wrPtr < (receiving 41).cfg.lineCap := by
  decide
theorem witness_FullBufferOverflows :
    (receiving 42).la.active = true ∧ (0x30#8 : Byte) ≠ 0x0D#8 ∧ (receiving 42).la.wrPtr = (receiving 42).cfg.lineCap := by
  decide
theorem witness_PathsRunWhereverSelected :
    (receiving 41).la.wrPtr < (receiving 41).cfg.lineCap ∧ (receiving 42).cfg.lineCap ≤ (receiving 42).la.wrPtr := by decide
theorem witness_NopWritesNothing :
    (passAt eofLine .getLength 0).dec.status = .busy ∧
    ∃ t, exec (decStateInstr (passAt eofLine .getLength 0).dec.state) (passAt eofLine .getLength 0) = .next t :=
  ⟨rfl, _, rfl⟩
theorem witness_DecodeStartsPassUnlessBusy :
    State.reset.dec.status ≠ .busy ∧ (passAt eofLine .getType 6).dec.status = .busy := by decide

theorem witness_GetLengthStoresLength :
    FieldBytes 1 (passAt dataHead .getLength 0) [0x10#8] ∧
    (passAt [] .getLength 0).la.lineLen < (passAt [] .getLength 0).dec.rdPtr + 2 * 1 ∧
    (FieldChars 1 (passAt [0x30#8, 0x47#8] .getLength 0) [0x30#8, 0x47#8] ∧
      ∃ c ∈ ([0x30#8, 0x47#8] : List Byte), hexval c = none) :=
  ⟨⟨[0x31#8, 0x30#8], fieldChars_two (by decide) (by decide) (by decide), by decide⟩, by decide,
    fieldChars_two (by decide) (by decide) (by decide), 0x47#8, by decide, by decide⟩

theorem witness_GetAddressStoresAddress :
    FieldBytes 2 (passAt dataHead .getAddress 2) [0x01#8, 0x00#8] ∧
    (passAt dataHead .getAddress 3).la.lineLen < (passAt dataHead .getAddress 3).dec.rdPtr + 2 * 2 ∧
    (FieldChars 2 (passAt [0x30#8, 0x30#8, 0x30#8, 0x47#8] .getAddress 0) [0x30#8, 0x30#8, 0x30#8, 0x47#8] ∧
      ∃ c ∈ ([0x30#8, 0x30#8, 0x30#8, 0x47#8] : List Byte), hexval c = none) :=
  ⟨⟨[0x30#8, 0x31#8, 0x30#8, 0x30#8], ⟨by decide, by decide, by decide⟩, by decide⟩, by decide,
    ⟨by decide, by decide, by decide⟩, 0x47#8, by decide, by decide⟩

theorem witness_GetTypeStoresTypeAndBranches :
    FieldBytes 1 (passAt eofLine .getType 6) [0x01#8] ∧ FieldBytes 1 (passAt eofLine .getType 0) [0x00#8] ∧
    FieldBytes 1 (passAt segLine .getType 6) [0x02#8] ∧ FieldBytes 1 (passAt [0x46#8, 0x46#8] .getType 0) [0xFF#8] :=
  ⟨⟨[0x30#8, 0x31#8], fieldChars_two (by decide) (by decide) (by decide), by decide⟩,
   ⟨[0x30#8, 0x30#8], fieldChars_two (by decide) (by decide) (by decide), by decide⟩,
   ⟨[0x30#8, 0x32#8], fieldChars_two (by decide) (by decide) (by decide), by decide⟩,
   ⟨[0x46#8, 0x46#8], fieldChars_two (by decide) (by decide) (by decide), by decide⟩⟩

/-- A pass in GET_EXT at the field of the Extended Segment Address line. -/
def atSegField : State := withRecord { Record.reset with type := 0x02#8 } (passAt segLine .getExt 8)

theorem witness_GetExtStoresAddressField :
    atSegField.cfg.extBytes atSegField.rcd.type = some 2 ∧ FieldBytes 2 atSegField [0x12#8, 0x00#8] :=
  ⟨by decide, [0x31#8, 0x32#8, 0x30#8, 0x30#8], ⟨by decide, by decide, by decide⟩, by decide⟩

theorem witness_TypeSelectsItsRow :
    FieldBytes 1 (passAt eofLine .getType 6) [0x01#8] ∧ (passAt eofLine .getType 6).dec.state = .getType ∧
    atSegField.dec.state = .getExt ∧ (atSegField.cfg.extBytes atSegField.rcd.type).isSome :=
  ⟨witness_GetTypeStoresTypeAndBranches.1, rfl, rfl, by decide⟩

theorem witness_AddressRecordRows :
    (passAt segLine .getType 8).dec.state ≠ .getExt ∧ atSegField.dec.state = .getExt ∧
    FieldBytes 2 atSegField [0x12#8, 0x00#8] :=
  ⟨by decide, rfl, witness_GetExtStoresAddressField.2⟩

theorem witness_GetDataStoresOneByte :
    FieldBytes 1 (passAt [0x32#8, 0x31#8] .getData 0) [0x21#8] ∧
    (passAt [0x32#8, 0x31#8] .getData 0).dec.didx < (passAt [0x32#8, 0x31#8] .getData 0).cfg.maxDataBytes :=
  ⟨⟨[0x32#8, 0x31#8], fieldChars_two (by decide) (by decide) (by decide), by decide⟩, by decide⟩

theorem witness_GetChecksumDecidesRecord :
    FieldBytes 1 (passAt [0x30#8, 0x30#8] .getChecksum 0) [0x00#8] ∧
    (0x00#8 : Byte) = neg8 (passAt [0x30#8, 0x30#8] .getChecksum 0).rcd.checksum ∧
    FieldBytes 1 (passAt [0x46#8, 0x45#8] .getChecksum 0) [0xFE#8] ∧
    (0xFE#8 : Byte) ≠ neg8 (passAt [0x46#8, 0x45#8] .getChecksum 0).rcd.checksum :=
  ⟨⟨[0x30#8, 0x30#8], fieldChars_two (by decide) (by decide) (by decide), by decide⟩, by decide,
   ⟨[0x46#8, 0x45#8], fieldChars_two (by decide) (by decide) (by decide), by decide⟩, by decide⟩

theorem witness_FieldStepsCheckBoundThenDigits :
    fieldWidth (passAt [0x30#8, 0x47#8] .getLength 0) .getLength = some 1 ∧ fieldWidth atSegField .getExt = some 2 := by
  decide

/-- A line of `n` characters announced over a buffer in which only cell 0 is written, and a pass in `k` before it. -/
def unwritten (k : DecState) (n rd : Nat) : State :=
  { State.reset with
    la := { LineAsm.reset with lineLen := n, lb := ⟨[(0, 0x30#8)]⟩ }
    dec := { state := k, status := .busy, rdPtr := rd, didx := 0 }
    rcd := { Record.reset with type := 0x02#8 } }

/-- A field with its second character unwritten, one past the end of the buffer, and an address field. -/
theorem witness_StopsOnlyOutsideTheInvariant :
    Inv (passAt eofLine .getLength 0) ∧
    (fieldWidth (unwritten .getLength 2 0) .getLength = some 1 ∧ (unwritten .getLength 2 0).dec.rdPtr + 2 * 1 ≤ 2 ∧
      ((unwritten .getLength 2 0).lineByte 0).isSome ∧ (unwritten .getLength 2 0).lineByte 1 = none) ∧
    ((unwritten .getLength 44 42).dec.rdPtr + 2 * 1 ≤ (unwritten .getLength 44 42).la.lineLen ∧
      (unwritten .getLength 44 42).lineByte 42 = none ∧ ¬ 42 < (unwritten .getLength 44 42).cfg.lineCap) ∧
    ((unwritten .getExt 4 0).dec.state = .getExt ∧ (unwritten .getExt 4 0).cfg.extBytes 0x02#8 = some 2 ∧
      (unwritten .getExt 4 0).dec.rdPtr + 2 * 2 ≤ (unwritten .getExt 4 0).la.lineLen) ∧
    (∃ (s : State) (b : Byte), FieldBytes 1 s [b] ∧ s.cfg.maxDataBytes ≤ s.dec.didx) ∧
    (∃ s : State, s.cfg.extBytes s.rcd.type = none) ∧
    (receiving 42).cfg.lineCap ≤ (receiving 42).la.wrPtr :=
  ⟨witness_inv_busy, by decide, by decide, by decide,
   ⟨{ passAt [0x32#8, 0x31#8] .getData 0 with dec := { state := .getData, status := .busy, rdPtr := 0, didx := 16 } },
     0x21#8, ⟨[0x32#8, 0x31#8], fieldChars_two (by decide) (by decide) (by decide), by decide⟩, by decide⟩,
   ⟨State.reset, by decide⟩, by decide⟩

theorem witness_HexvalTable :
    (0x30 ≤ (0x39#8 : Byte).toNat ∧ (0x39#8 : Byte).toNat ≤ 0x39) ∧
    (0x41 ≤ (0x46#8 : Byte).toNat ∧ (0x46#8 : Byte).toNat ≤ 0x46) ∧
    (0x61 ≤ (0x61#8 : Byte).toNat ∧ (0x61#8 : Byte).toNat ≤ 0x66) ∧
    (¬(0x30 ≤ (0x3A#8 : Byte).toNat ∧ (0x3A#8 : Byte).toNat ≤ 0x39) ∧
      ¬(0x41 ≤ (0x3A#8 : Byte).toNat ∧ (0x3A#8 : Byte).toNat ≤ 0x46) ∧
      ¬(0x61 ≤ (0x3A#8 : Byte).toNat ∧ (0x3A#8 : Byte).toNat ≤ 0x66)) := by decide
theorem witness_PairsConvertHighNibbleFirst :
    hexval 0x37#8 = some 7#4 ∧ hexval 0x61#8 = some 10#4 ∧ hexval 0x47#8 = none ∧
    ([0x37#8, 0x61#8] : List Byte).length % 2 = 0 ∧ (∃ c ∈ ([0x30#8, 0x47#8] : List Byte), hexval c = none) ∧
    (∀ c ∈ ([0x37#8, 0x61#8] : List Byte), hexval c ≠ none) := by decide

/-- The checksum byte 00 of a zero sum with bit 0 flipped, in hex: `01`. -/
theorem witness_SingleBitCorruptionIsDetected :
    (0 < 8) ∧ (0x00#8 : Byte) = neg8 (passAt [0x30#8, 0x31#8] .getChecksum 0).rcd.checksum ∧
    FieldBytes 1 (passAt [0x30#8, 0x31#8] .getChecksum 0) [0x00#8 ^^^ (1#8 <<< 0)] :=
  ⟨by decide, by decide, [0x30#8, 0x31#8], fieldChars_two (by decide) (by decide) (by decide), by decide⟩

theorem witness_DecodeEncodeRoundTrip : WellFormed (.laDiscard 0x0D#8) = true ∧ WellFormed (.recUnknown20 0x3F#8) = true := by
  decide
theorem witness_DecodedInstructionsAreWellFormed : decode (.recType 0x3F#8) = .ok (.recUnknown20 0x3F#8) := by decide

/-- A pass in GET_LENGTH with inputs driven. -/
def driven (x : CycleInput) : State := { passAt eofLine .getLength 0 with inputs := [x] }

theorem witness_StepRunsTheDecodedCommand :
    (∃ (s : State) (x : CycleInput) (rest : List CycleInput), s.inputs = x :: rest ∧ x.rst = true) ∧
    (∃ (s : State) (x : CycleInput) (rest : List CycleInput), s.inputs = x :: rest ∧ x.rst = false ∧ s.dec.status ≠ .busy) ∧
    (∃ (s : State) (x : CycleInput) (rest : List CycleInput), s.inputs = x :: rest ∧ x.rst = false ∧ decodeCommand x.cmd = .init) ∧
    (∃ (s : State) (x : CycleInput) (rest : List CycleInput), s.inputs = x :: rest ∧ x.rst = false ∧
      s.dec.status = .busy ∧ decodeCommand x.cmd ≠ .init ∧
      ∃ d c, exec (decStateInstr s.dec.state) { s with inputs := rest } = .next d ∧
        exec (decodeCommand x.cmd) { s with inputs := rest } = .next c) ∧
    (∃ (s : State) (x : CycleInput) (rest : List CycleInput), s.inputs = x :: rest ∧ x.rst = false ∧
      s.dec.status = .busy ∧ decodeCommand x.cmd ≠ .init ∧
      ∃ f, exec (decStateInstr s.dec.state) { s with inputs := rest } = .fault f) :=
  ⟨⟨driven ⟨true, 0#10⟩, _, _, rfl, rfl⟩,
   ⟨{ State.reset with inputs := [⟨false, 0#10⟩] }, _, _, rfl, rfl, by decide⟩,
   ⟨driven ⟨false, 0x300#10⟩, _, _, rfl, rfl, by decide⟩,
   ⟨driven ⟨false, 0x13A#10⟩, _, _, rfl, rfl, rfl, by decide, _, _, rfl, rfl⟩,
   ⟨{ driven ⟨false, 0#10⟩ with dec := { state := .getExt, status := .busy, rdPtr := 0, didx := 0 } },
     _, _, rfl, rfl, rfl, by decide, _, rfl⟩⟩

theorem witness_ResetValues : 0 < Config.default.maxDataBytes ∧ 15 < Config.default.maxDataBytes := by decide
theorem witness_RecordTypesBranch :
    Instr.recUnknown20 0x3F#8 ∈ [Instr.recUnknown06 0x3F#8, .recUnknown08 0x3F#8, .recUnknown10 0x3F#8,
      .recUnknown20 0x3F#8, .recUnknown40 0x3F#8, .recUnknown80 0x3F#8] := by decide
theorem witness_IdleCycleIsNop : State.reset.inputs = [] ∧ State.reset.dec.status ≠ .busy := by decide
theorem witness_ResetCyclesGiveResetState : ([0x13A#10, 0x300#10] : List CmdWord) ≠ [] := by decide

/-- Two states with one Line Assembler and different decoders, and their steps. -/
theorem witness_DecoderNeverChangesLineAssembler :
    ∃ s u s' u' : State, s.la = u.la ∧ s.cfg = u.cfg ∧ s.inputs = u.inputs ∧ s.dec ≠ u.dec ∧
      step s = .next s' ∧ step u = .next u' :=
  ⟨idleWithLine, passAt eofLine .getLength 0, _, _, rfl, rfl, rfl, by decide, rfl, rfl⟩
theorem witness_DecoderStepIgnoresFeedOfItsCycle : Inv (passAt eofLine .getLength 0) := witness_inv_busy
theorem witness_TerminalStatusStays :
    idleWithLine.dec.status ≠ .busy ∧ decodeCommand 0x000#10 = .nop ∧
    decodeCommand 0x13A#10 = .feed (cmdData 0x13A#10) := by decide
theorem witness_StartMarkerDuringPassAbortsIt :
    Inv (passAt eofLine .getLength 0) ∧ (passAt eofLine .getLength 0).dec.status = .busy ∧
    (passAt eofLine .getLength 0).la.active = false := ⟨witness_inv_busy, rfl, rfl⟩
theorem witness_ParametersNeverChange : ∃ s t : State, step s = .next t := ⟨passAt eofLine .getLength 0, _, rfl⟩
theorem witness_EveryStepKeepsTheInvariant :
    Inv idleWithLine ∧ idleWithLine.la.lineLen ≠ 0 ∧ ∃ t, step idleWithLine = .next t ∧ t.la.lineLen ≠ 0 :=
  ⟨witness_inv_idle, by decide, _, rfl, by decide⟩
theorem witness_CursorsFitTheirRegisters : Inv idleWithLine := witness_inv_idle
theorem witness_LeadingNoiseIsIgnored :
    idleWithLine.la.active = false ∧ idleWithLine.dec.status ≠ .busy ∧ ([0x61#8, 0x0A#8] : List Byte) ≠ [] ∧
    (0x3A#8 : Byte) ∉ ([0x61#8, 0x0A#8] : List Byte) ∧ Inv idleWithLine :=
  ⟨rfl, by decide, by decide, by decide, witness_inv_idle⟩
theorem witness_LineCompletesExactlyOnce :
    Inv (passAt eofLine .getLength 0) ∧ (passAt eofLine .getLength 0).la.active = false ∧
    segLine.length ≤ (passAt eofLine .getLength 0).cfg.lineCap ∧ (0x0D#8 : Byte) ∉ segLine :=
  ⟨witness_inv_busy, rfl, by decide, by decide⟩
theorem witness_OverlongLineOverflows :
    Inv idleWithLine ∧ idleWithLine.la.active = false ∧
    (List.replicate 42 (0x30#8 : Byte)).length = idleWithLine.cfg.lineCap ∧
    (0x0D#8 : Byte) ∉ List.replicate 42 (0x30#8 : Byte) ∧ (0x30#8 : Byte) ≠ 0x0D#8 ∧
    (0x3A#8 : Byte) ∉ ([0x30#8, 0x0D#8] : List Byte) :=
  ⟨witness_inv_idle, rfl, by decide, by decide, by decide, by decide⟩
theorem witness_EveryPassEnds :
    Inv (passAt eofLine .getLength 0) ∧
    (List.replicate 22 (⟨false, 0x10A#10⟩ : CycleInput)).length = (passAt eofLine .getLength 0).cfg.maxDataBytes + 6 ∧
    (∀ x ∈ List.replicate 22 (⟨false, 0x10A#10⟩ : CycleInput), leavesPass x = true) :=
  ⟨witness_inv_busy, by decide, by decide⟩
theorem witness_PassDecodesTheLine :
    Inv idleWithLine ∧ idleWithLine.dec.status ≠ .busy ∧
    recordBytes idleWithLine.cfg (lineText idleWithLine) = some [0x00#8, 0x00#8, 0x00#8, 0x01#8, 0xFF#8] ∧
    checksumHolds [0x00#8, 0x00#8, 0x00#8, 0x01#8, 0xFF#8] = true :=
  ⟨witness_inv_idle, by decide, by decide, by decide⟩
theorem witness_PassDependsOnlyOnTheLine :
    Inv idleWithLine ∧ idleWithLine.dec.status ≠ .busy ∧ lineText idleWithLine = eofLine :=
  ⟨witness_inv_idle, by decide, by decide⟩
theorem witness_PassTakesItsSteps :
    Inv idleWithLine ∧ idleWithLine.dec.status ≠ .busy ∧
    recordBytes idleWithLine.cfg (lineText idleWithLine) = some [0x00#8, 0x00#8, 0x00#8, 0x01#8, 0xFF#8] :=
  ⟨witness_inv_idle, by decide, by decide⟩
theorem witness_TraceLinesExpand : Inv (passAt eofLine .getLength 0) := witness_inv_busy

end Sys2Proof.Tests
end

/-! The stops of the model (O22) and the widths of the cursors (O49). From a state with the invariant every field a step
reads is written, so every decoder step and every cycle answers a next state; a field step that does stop is a
`withField`, and `withField_unreadable` says where. -/

namespace Sys2Proof.Machine

/-! ### Reading the completed line -/

/-- Every character of a completed line can be read (R44). -/
theorem LineInv.lineByte_isSome {s : State} (hl : LineInv s.cfg s.la) {i : Nat} (hi : i < s.la.lineLen) :
    (s.lineByte i).isSome := by
  have hcap : i < s.cfg.lineCap := Nat.lt_of_lt_of_le hi hl.lineLen_le
  simpa only [State.lineByte, if_pos hcap] using hl.line_written i hi

/-- A field inside the completed line has its characters. -/
theorem LineInv.exists_fieldChars {s : State} (hl : LineInv s.cfg s.la) {n : Nat}
    (hb : s.dec.rdPtr + 2 * n ≤ s.la.lineLen) : ∃ cs, FieldChars n s cs := by
  have hsome : ∀ j : Fin (2 * n), (s.lineByte (s.dec.rdPtr + j)).isSome := fun j => hl.lineByte_isSome (by omega)
  exact ⟨List.ofFn fun j => (s.lineByte (s.dec.rdPtr + j)).get (hsome j), hb, by simp, fun j hj => by simp [hj]⟩

/-- A field step answers if what it does with the bytes read answers: no character of its field is unreadable. -/
theorem withField_answers {n : Nat} {s : State} {k : List Byte → Host.Outcome State Fault Refusal}
    (hl : LineInv s.cfg s.la) (hk : ∀ bs, ∃ t, k bs = .next t) : ∃ t, withField n s k = .next t := by
  by_cases hb : s.dec.rdPtr + 2 * n ≤ s.la.lineLen
  · obtain ⟨cs, _, hlen, hcs⟩ := hl.exists_fieldChars hb
    rw [withField_chars hb hlen hcs]
    cases pairs cs with
    | some bs => exact hk bs
    | none => exact ⟨_, rfl⟩
  · exact ⟨_, withField_short (Nat.lt_of_not_le hb)⟩

/-! ### The field each step reads -/

/-- The field of an address record, where its width is defined (R157). -/
theorem extField_eq_withField {s : State} {t : Byte} {n : Nat} (h : s.cfg.extBytes t = some n) :
    extField t s = withField n s fun bs =>
      .next (goto .getChecksum (advance (2 * n) (accumulate bs (writeExt t (BitVec.ofNat 32 (be bs)) s)))) := by
  simp only [extField, h]

/-- The step of GET_DATA while the payload store has room (R155). -/
theorem exec_decGetData_of_lt {s : State} (h : s.dec.didx < s.cfg.maxDataBytes) :
    ∃ f : List Byte → State, exec .decGetData s = withField 1 s fun bs => .next (f bs) := by
  simp only [exec, execDecGetData, if_pos h]
  exact ⟨_, rfl⟩

/-- The step of GET_EXT with the type of an address record (R157). -/
theorem exec_decGetExt_of_width {s : State} {n : Nat} (h : s.cfg.extBytes s.rcd.type = some n) :
    ∃ f : List Byte → State, exec .decGetExt s = withField n s fun bs => .next (f bs) :=
  ⟨_, extField_eq_withField h⟩

/-- Every decoder state that has a field width reads one field of that width. -/
theorem exec_eq_withField_of_fieldWidth {s : State} {k : DecState} {n : Nat} (h : fieldWidth s k = some n) :
    ∃ body, exec (decStateInstr k) s = withField n s body := by
  cases k with
  | getLength => cases h; exact ⟨_, rfl⟩
  | getAddress => cases h; exact ⟨_, rfl⟩
  | getType => cases h; exact ⟨_, rfl⟩
  | getData => cases h; exact ⟨_, rfl⟩
  | getExt => exact ⟨_, extField_eq_withField h⟩
  | getChecksum => cases h; exact ⟨_, rfl⟩
  | init => cases h
  | error => cases h
  | done => cases h

/-- The four address record rows are `addressRecord` of their type (R158 to R161). -/
theorem exec_addressRow {i : Instr} {t : Byte} (s : State)
    (h : (i, t) ∈ [(Instr.recExtSegmentAddress, 0x02#8), (.recStartSegmentAddress, 0x03#8),
      (.recExtLinearAddress, 0x04#8), (.recStartLinearAddress, 0x05#8)]) :
    exec i s = addressRecord t s := by
  simp only [List.mem_cons, Prod.mk.injEq, List.not_mem_nil, or_false] at h
  obtain ⟨rfl, rfl⟩ | ⟨rfl, rfl⟩ | ⟨rfl, rfl⟩ | ⟨rfl, rfl⟩ := h
  · rfl
  · rfl
  · rfl
  · rfl

/-- In GET_EXT, an address record reads a field of its type's width. -/
theorem addressRecord_eq_withField {s : State} {t : Byte} {n : Nat} (hs : s.dec.state = .getExt)
    (hn : s.cfg.extBytes t = some n) : ∃ body, addressRecord t s = withField n s body := by
  rw [addressRecord, if_pos hs]
  exact ⟨_, extField_eq_withField hn⟩

/-! ### Every cycle answers from the invariant -/

/-- From the invariant, the decoder step of the current state answers (R207). -/
theorem Inv.decoderStep_answers {s : State} (h : Inv s) : ∃ t, exec (decStateInstr s.dec.state) s = .next t := by
  cases hk : s.dec.state with
  | getData =>
    obtain ⟨_, hlen, _, hdidx⟩ := h.decoder.data_bounds hk
    obtain ⟨f, hf⟩ := exec_decGetData_of_lt (Nat.lt_of_lt_of_le hdidx hlen)
    exact hf ▸ withField_answers h.line fun _ => ⟨_, rfl⟩
  | getExt =>
    obtain ⟨n, hn⟩ := Option.isSome_iff_exists.1 (h.decoder.ext_type hk)
    obtain ⟨f, hf⟩ := exec_decGetExt_of_width hn
    exact hf ▸ withField_answers h.line fun _ => ⟨_, rfl⟩
  | getLength => exact withField_answers h.line fun _ => ⟨_, rfl⟩
  | getAddress => exact withField_answers h.line fun _ => ⟨_, rfl⟩
  | getType => exact withField_answers h.line fun _ => ⟨_, rfl⟩
  | getChecksum => exact withField_answers h.line fun _ => ⟨_, rfl⟩
  | init => exact ⟨_, rfl⟩
  | error => exact ⟨_, rfl⟩
  | done => exact ⟨_, rfl⟩

/-- A host command answers in every state (R181 to R184). -/
theorem exec_decodeCommand_answers (w : CmdWord) (s : State) : ∃ t, exec (decodeCommand w) s = .next t := by
  obtain hw | hw | hw | hw := decodeCommand_cases w <;> rw [hw]
  · exact ⟨_, rfl⟩
  · exact ⟨_, rfl⟩
  · by_cases hb : s.dec.status = .busy
    · exact ⟨s, if_pos hb⟩
    · exact ⟨_, if_neg hb⟩
  · exact ⟨_, rfl⟩

/-- From the invariant, every cycle answers, on any inputs (R207). -/
theorem Inv.cycle_answers {s : State} (h : Inv s) (x : CycleInput) : ∃ t, cycle x s = .next t := by
  obtain ⟨rst, w⟩ := x
  cases rst with
  | true => exact ⟨_, cycle_reset w s⟩
  | false =>
    obtain ⟨c, hc⟩ := exec_decodeCommand_answers w s
    rw [cycle_command, commandCycle, hc]
    split
    · obtain ⟨d, hd⟩ := h.decoderStep_answers
      exact ⟨_, hd ▸ joinCycle_next d c⟩
    · exact ⟨c, rfl⟩

/-- An outcome that is a next state is no fault. -/
theorem ne_fault_of_answers {o : Host.Outcome State Fault Refusal} (h : ∃ t, o = .next t) (f : Fault) :
    o ≠ .fault f := by
  obtain ⟨t, rfl⟩ := h
  exact nofun

/-! ### Where each meaning stops -/

/-- An instruction that reads one field stops at the field's first unreadable character. -/
theorem stopsOnUnreadableCell_of_withField {n : Nat} {i : Instr} {s : State}
    (h : ∃ body, exec i s = withField n s body) : StopsOnUnreadableCell n i s := by
  obtain ⟨body, hi⟩ := h
  intro j hb hj hk hnone
  rw [hi, withField_unreadable hb hj hk hnone]

/-- GET_DATA with its byte read and the payload store full stops (R14, R52). -/
theorem exec_decGetData_full {s : State} {b : Byte} (hf : FieldBytes 1 s [b]) (hd : s.cfg.maxDataBytes ≤ s.dec.didx) :
    exec .decGetData s = .fault (.payloadRange s.dec.didx) := by
  obtain ⟨cs, ⟨hb, hlen, hcs⟩, hp⟩ := hf
  simp only [exec, execDecGetData, withField_chars hb hlen hcs, hp, if_neg (Nat.not_lt.2 hd)]

/-- GET_EXT without the type of an address record stops (R157). -/
theorem exec_decGetExt_undefined {s : State} (h : s.cfg.extBytes s.rcd.type = none) :
    exec .decGetExt s = .fault (.extTypeUndefined s.rcd.type) := by
  simp only [exec, execDecGetExt, extField, h]

/-- LA_STORE with no cell left stops (R14). -/
theorem exec_laStore_full {s : State} (b : Byte) (h : s.cfg.lineCap ≤ s.la.wrPtr) :
    exec (.laStore b) s = .fault (.lineBufferRange s.la.wrPtr) := if_neg (Nat.not_lt.2 h)

/-- Settles O22: from the invariant every cycle and every decoder step answers, and each stop outside it is the stop of
the one field read, of the payload store, of the undefined width, or of the full buffer. -/
theorem stopsOnlyOutsideTheInvariant : Obligations.StopsOnlyOutsideTheInvariant :=
  ⟨fun _ x f h => ⟨ne_fault_of_answers (h.cycle_answers x) f, ne_fault_of_answers h.decoderStep_answers f⟩,
   fun _ _ _ h => stopsOnUnreadableCell_of_withField (exec_eq_withField_of_fieldWidth h),
   fun s _ _ _ h hs hn => stopsOnUnreadableCell_of_withField (exec_addressRow s h ▸ addressRecord_eq_withField hs hn),
   fun _ _ hf hd => exec_decGetData_full hf hd,
   fun _ h => exec_decGetExt_undefined h,
   fun _ b h => exec_laStore_full b h⟩

/-! ### Register widths -/

/-- A register of `bitsToHold n` bits holds every value up to `n` (R9). -/
theorem lt_two_pow_bitsToHold {m n : Nat} (h : m ≤ n) : m < 2 ^ bitsToHold n := by
  unfold bitsToHold
  split
  · omega
  · exact Nat.lt_of_le_of_lt h Nat.lt_log2_self

/-- Settles O49: the invariant bounds each cursor by the value its register is built to hold (R9). -/
theorem cursorsFitTheirRegisters : Obligations.CursorsFitTheirRegisters := fun _ h =>
  ⟨lt_two_pow_bitsToHold h.line.wrPtr_le, lt_two_pow_bitsToHold h.line.lineLen_le,
   lt_two_pow_bitsToHold h.decoder.rdPtr_le, lt_two_pow_bitsToHold h.decoder.didx_le⟩

end Sys2Proof.Machine

/-! The state family: the invariant at reset (O47) and over every step (O46), the parameters (O45) and the ports (O50). A
cycle writes the two machines apart (R56, R180): `cycle_la_cases` says what it can do to the Line Assembler,
`cycle_dec_cases` what it can do to the decoder and the record, and each half of the invariant is kept by itself. -/

namespace Sys2Proof.Machine

/-! ### What a cycle does to each machine -/

/-- Everything a host command can do by itself (R181 to R184). -/
theorem exec_decodeCommand_cases {w : CmdWord} {s c : State} (h : exec (decodeCommand w) s = .next c) :
    (decodeCommand w = .nop ∧ c = s) ∨
    (decodeCommand w = .feed (cmdData w) ∧ c = s.setLa (lineFeedByte s.cfg.lineCap (cmdData w) s.la)) ∨
    (decodeCommand w = .decode ∧ s.dec.status = .busy ∧ c = s) ∨
    (decodeCommand w = .decode ∧ s.dec.status ≠ .busy ∧ c = s.setDec { s.dec with state := .init, status := .busy }) ∨
    (decodeCommand w = .init ∧ c = (s.setLa { LineAsm.reset with lb := s.la.lb }).setDec Decoder.reset) := by
  obtain hw | hw | hw | hw := decodeCommand_cases w <;> rw [hw] at h
  · cases h; exact .inl ⟨hw, rfl⟩
  · cases h; exact .inr (.inl ⟨hw, rfl⟩)
  · simp only [exec, execDecode] at h
    split at h
    · next hb => cases h; exact .inr (.inr (.inl ⟨hw, hb, rfl⟩))
    · next hb => cases h; exact .inr (.inr (.inr (.inl ⟨hw, hb, rfl⟩)))
  · cases h; exact .inr (.inr (.inr (.inr ⟨hw, rfl⟩)))

/-- Everything a cycle can do: reset, the command by itself, or a decoder step beside the command (R180). -/
theorem cycle_cases {x : CycleInput} {s t : State} (h : cycle x s = .next t) :
    (x.rst = true ∧ t = applyReset s) ∨
    (x.rst = false ∧ (s.dec.status ≠ .busy ∨ decodeCommand x.cmd = .init) ∧ exec (decodeCommand x.cmd) s = .next t) ∨
    (x.rst = false ∧ s.dec.status = .busy ∧ decodeCommand x.cmd ≠ .init ∧
      ∃ d c, exec (decStateInstr s.dec.state) s = .next d ∧ exec (decodeCommand x.cmd) s = .next c ∧
        t = (c.setDec d.dec).setRcd d.rcd) := by
  obtain ⟨rst, w⟩ := x
  cases rst with
  | true => cases h; exact .inl ⟨rfl, rfl⟩
  | false =>
    obtain ⟨hq, hc⟩ | ⟨hb, hi, hj⟩ := commandCycle_next h
    · exact .inr (.inl ⟨rfl, hq, hc⟩)
    · exact .inr (.inr ⟨rfl, hb, hi, hj⟩)

/-- A command changes no parameter (R42). -/
theorem exec_decodeCommand_cfg {w : CmdWord} {s c : State} (h : exec (decodeCommand w) s = .next c) :
    c.cfg = s.cfg := by
  obtain ⟨_, rfl⟩ | ⟨_, rfl⟩ | ⟨_, _, rfl⟩ | ⟨_, _, rfl⟩ | ⟨_, rfl⟩ := exec_decodeCommand_cases h
  · rfl
  · rfl
  · rfl
  · rfl
  · rfl

/-- A cycle changes no parameter (R42): reset keeps them, and the decoder step owns no part of the state they are in. -/
theorem cycle_cfg {x : CycleInput} {s t : State} (h : cycle x s = .next t) : t.cfg = s.cfg := by
  obtain ⟨_, rfl⟩ | ⟨_, _, hc⟩ | ⟨_, _, _, d, c, _, hc, rfl⟩ := cycle_cases h
  · rfl
  · exact exec_decodeCommand_cfg hc
  · exact (exec_decodeCommand_cfg hc :)

/-- What a command can do to the Line Assembler: nothing, the step of one fed byte, or INIT (R180). -/
theorem exec_decodeCommand_la {w : CmdWord} {s c : State} (h : exec (decodeCommand w) s = .next c) :
    c.la = s.la ∨ (∃ b, c.la = lineFeedByte s.cfg.lineCap b s.la) ∨ c.la = { LineAsm.reset with lb := s.la.lb } := by
  obtain ⟨_, rfl⟩ | ⟨_, rfl⟩ | ⟨_, _, rfl⟩ | ⟨_, _, rfl⟩ | ⟨_, rfl⟩ := exec_decodeCommand_cases h
  · exact .inl rfl
  · exact .inr (.inl ⟨_, rfl⟩)
  · exact .inl rfl
  · exact .inl rfl
  · exact .inr (.inr rfl)

/-- What a cycle can do to the Line Assembler: what its command does, or reset, which keeps the cells as INIT does. -/
theorem cycle_la_cases {x : CycleInput} {s t : State} (h : cycle x s = .next t) :
    t.la = s.la ∨ (∃ b, t.la = lineFeedByte s.cfg.lineCap b s.la) ∨ t.la = { LineAsm.reset with lb := s.la.lb } := by
  obtain ⟨_, rfl⟩ | ⟨_, _, hc⟩ | ⟨_, _, _, d, c, _, hc, rfl⟩ := cycle_cases h
  · exact .inr (.inr rfl)
  · exact exec_decodeCommand_la hc
  · exact (exec_decodeCommand_la hc :)

/-- What a cycle can do to the decoder and the record: nothing with no pass running, the start of a pass, the decoder's
step, or the decoder's initial state with the record kept (INIT) or cleared (reset). -/
theorem cycle_dec_cases {x : CycleInput} {s t : State} (h : cycle x s = .next t) :
    (s.dec.status ≠ .busy ∧ t.dec = s.dec ∧ t.rcd = s.rcd) ∨
    (s.dec.status ≠ .busy ∧ t.dec = { s.dec with state := .init, status := .busy } ∧ t.rcd = s.rcd) ∨
    (s.dec.status = .busy ∧ ∃ d, exec (decStateInstr s.dec.state) s = .next d ∧ t.dec = d.dec ∧ t.rcd = d.rcd) ∨
    (t.dec = Decoder.reset ∧ (t.rcd = s.rcd ∨ t.rcd = Record.reset)) := by
  obtain ⟨_, rfl⟩ | ⟨_, hq, hc⟩ | ⟨_, hb, _, d, c, hd, _, rfl⟩ := cycle_cases h
  · exact .inr (.inr (.inr ⟨rfl, .inr rfl⟩))
  · obtain ⟨hw, rfl⟩ | ⟨hw, rfl⟩ | ⟨hw, _, rfl⟩ | ⟨_, hb, rfl⟩ | ⟨_, rfl⟩ := exec_decodeCommand_cases hc
    · exact .inl ⟨hq.resolve_right (hw.trans_ne nofun), rfl, rfl⟩
    · exact .inl ⟨hq.resolve_right (hw.trans_ne nofun), rfl, rfl⟩
    · exact .inl ⟨hq.resolve_right (hw.trans_ne nofun), rfl, rfl⟩
    · exact .inr (.inl ⟨hb, rfl, rfl⟩)
    · exact .inr (.inr (.inr ⟨rfl, .inl rfl⟩))
  · exact .inr (.inr (.inl ⟨hb, d, hd, rfl, rfl⟩))

/-- Settles O45: a step is a cycle, and a cycle changes no parameter. -/
theorem parametersNeverChange : Obligations.ParametersNeverChange := fun s _ h =>
  cycle_cfg (x := nextInput s) (s := sampled s) h

/-! ### The Line Assembler's half of the invariant -/

/-- The Line Assembler after reset or INIT, whatever canonical cells it keeps (R230, R233). -/
theorem lineInv_reset {cfg : Config} {lb : Memory} (h : lb.wf lineUnlisted cfg.lineCap = true) :
    LineInv cfg { LineAsm.reset with lb := lb } where
  wrPtr_le := Nat.zero_le _
  wrPtr_inactive _ := rfl
  lineLen_le := Nat.zero_le _
  lineLen_inactive _ := rfl
  line_written _ hi := absurd hi (Nat.not_lt_zero _)
  partial_written _ hi := absurd hi (Nat.not_lt_zero _)
  lb_wf := h

/-- No completed line stands while a line is being received (R43, 2). -/
theorem LineInv.lineLen_of_active {cfg : Config} {l : LineAsm} (h : LineInv cfg l) (ha : l.active = true) :
    l.lineLen = 0 := by
  by_contra hne
  simp [h.lineLen_inactive hne] at ha

/-- A stored character is the next written cell of the line being received (R103). -/
theorem LineInv.after_store {cfg : Config} {l : LineAsm} (h : LineInv cfg l) (b : Byte) (ha : l.active = true)
    (hw : l.wrPtr < cfg.lineCap) : LineInv cfg (lineStore b l) where
  wrPtr_le := hw
  wrPtr_inactive hna := absurd (ha.symm.trans hna) (by decide)
  lineLen_le := h.lineLen_le
  lineLen_inactive hne := absurd (h.lineLen_of_active ha) hne
  line_written i hi := absurd (h.lineLen_of_active ha ▸ hi : i < 0) (Nat.not_lt_zero i)
  partial_written i hi := by
    rw [show (lineStore b l).lb = l.lb.write lineUnlisted l.wrPtr b from rfl, read_write]
    split
    · rfl
    · next hne => exact h.partial_written i (Nat.lt_of_le_of_ne (Nat.le_of_lt_succ hi) hne)
  lb_wf := write_wf hw h.lb_wf

/-- A fed byte keeps the Line Assembler's half of the invariant, on each of the five paths (R101 to R105). -/
theorem LineInv.after_feed {cfg : Config} {l : LineAsm} (h : LineInv cfg l) (b : Byte) :
    LineInv cfg (lineFeedByte cfg.lineCap b l) := by
  obtain ⟨_, _, e⟩ | ⟨_, _, e⟩ | ⟨_, _, e⟩ | ⟨ha, _, hw, e⟩ | ⟨_, _, _, e⟩ := lineFeedByte_cases cfg.lineCap b l <;>
    rw [e]
  case inl => -- LA_START
    exact { lineInv_reset h.lb_wf with
      wrPtr_inactive := fun _ => rfl
      lineLen_inactive := fun hne => absurd rfl hne }
  case inr.inl => exact { h with } -- LA_DISCARD
  case inr.inr.inl => -- LA_TERM: the cells received are the cells of the completed line
    exact { lineInv_reset h.lb_wf with
      lineLen_le := h.wrPtr_le
      lineLen_inactive := fun _ => rfl
      line_written := h.partial_written }
  case inr.inr.inr.inl => exact h.after_store b ha hw
  case inr.inr.inr.inr => exact { lineInv_reset h.lb_wf with } -- LA_OVERFLOW

/-- A fed byte drops a completed line or leaves it as it is (R43, 3). -/
theorem LineInv.feed_keeps_line {cfg : Config} {l : LineAsm} (h : LineInv cfg l) (b : Byte)
    (hl : l.lineLen ≠ 0) (hl' : (lineFeedByte cfg.lineCap b l).lineLen ≠ 0) :
    (lineFeedByte cfg.lineCap b l).lineLen = l.lineLen ∧ (lineFeedByte cfg.lineCap b l).lb = l.lb := by
  have hna := h.lineLen_inactive hl
  refine ⟨?_, lineFeedByte_lb_inactive _ b l hna⟩
  obtain ⟨_, _, e⟩ | ⟨_, _, e⟩ | ⟨ha, _⟩ | ⟨ha, _⟩ | ⟨ha, _⟩ := lineFeedByte_cases cfg.lineCap b l
  · exact absurd (congrArg LineAsm.lineLen e) hl'
  · exact (congrArg LineAsm.lineLen e :)
  · simp [hna] at ha
  · simp [hna] at ha
  · simp [hna] at ha

/-- A cycle keeps the Line Assembler's half of the invariant. -/
theorem LineInv.after_cycle {x : CycleInput} {s t : State} (hl : LineInv s.cfg s.la) (h : cycle x s = .next t) :
    LineInv s.cfg t.la := by
  obtain e | ⟨b, e⟩ | e := cycle_la_cases h <;> rw [e]
  · exact hl
  · exact hl.after_feed b
  · exact lineInv_reset hl.lb_wf

/-- While a completed line stands, a cycle writes none of it (R43, 3). -/
theorem LineInv.cycle_keeps_line {x : CycleInput} {s t : State} (hl : LineInv s.cfg s.la) (h : cycle x s = .next t)
    (hs : s.la.lineLen ≠ 0) (ht : t.la.lineLen ≠ 0) : t.la.lineLen = s.la.lineLen ∧ t.la.lb = s.la.lb := by
  obtain e | ⟨b, e⟩ | e := cycle_la_cases h <;> rw [e] at ht ⊢
  · exact ⟨rfl, rfl⟩
  · exact hl.feed_keeps_line b hs ht
  · exact absurd rfl ht

/-! ### The decoder's half of the invariant -/

/-- The decoder in its initial state, with any record whose payload is canonical (R183, R230). -/
theorem decInv_reset {cfg : Config} {r : Record} (h : r.pay.wf payUnlisted cfg.maxDataBytes = true) :
    DecInv cfg Decoder.reset r where
  rdPtr_le := Nat.zero_le _
  didx_le := Nat.zero_le _
  status_fits := rfl
  valid_fits := trivial
  header_didx _ := rfl
  data_bounds := nofun
  ext_type := nofun
  pay_wf := h

/-- DECODE starts a pass: the cursors stand until the pass's INIT step (R182). -/
theorem DecInv.start {cfg : Config} {d : Decoder} {r : Record} (h : DecInv cfg d r) :
    DecInv cfg { d with state := .init, status := .busy } r where
  rdPtr_le := h.rdPtr_le
  didx_le := h.didx_le
  status_fits := nofun
  valid_fits hne := absurd rfl hne
  header_didx := nofun
  data_bounds := nofun
  ext_type := nofun
  pay_wf := h.pay_wf

/-- What a running pass keeps from its INIT step to its end, in whatever state the decoder stands (R43, R36). -/
structure RunningPass (cfg : Config) (u : State) : Prop where
  busy : u.dec.status = .busy
  invalid : u.rcd.valid = false
  rdPtr_le : u.dec.rdPtr ≤ cfg.lineCap
  didx_le : u.dec.didx ≤ cfg.maxDataBytes
  pay_wf : u.rcd.pay.wf payUnlisted cfg.maxDataBytes = true

/-- A pass that is past its INIT step is a running pass. -/
theorem DecInv.runningPass {cfg : Config} {u : State} (h : DecInv cfg u.dec u.rcd) (hb : u.dec.status = .busy)
    (hk : u.dec.state ≠ .init) : RunningPass cfg u where
  busy := hb
  invalid := by
    have hv := h.valid_fits
    simp only [validFits, hb] at hv
    exact hv hk
  rdPtr_le := h.rdPtr_le
  didx_le := h.didx_le
  pay_wf := h.pay_wf

/-- A running pass has the invariant in a state that asks nothing more of the registers, or has what it asks. -/
theorem RunningPass.decInv_goto {cfg : Config} {u : State} (h : RunningPass cfg u) {k : DecState} (hdone : k ≠ .done)
    (hheader : k = .getLength ∨ k = .getAddress ∨ k = .getType → u.dec.didx = 0)
    (hdata : k = .getData → 1 ≤ u.rcd.length.toNat ∧ u.rcd.length.toNat ≤ cfg.maxDataBytes ∧ u.rcd.type = 0x00#8 ∧
      u.dec.didx < u.rcd.length.toNat)
    (hext : k = .getExt → (cfg.extBytes u.rcd.type).isSome) :
    DecInv cfg (goto k u).dec (goto k u).rcd where
  rdPtr_le := h.rdPtr_le
  didx_le := h.didx_le
  status_fits := by simpa only [statusFits, goto_status, goto_state, h.busy] using hdone
  valid_fits := by simpa only [validFits, goto_status, goto_state, goto_rcd, h.busy] using fun _ : k ≠ .init => h.invalid
  header_didx := hheader
  data_bounds := hdata
  ext_type := hext
  pay_wf := h.pay_wf

/-- `raise ParseError()` goes on to ERROR with a running pass (R15). -/
theorem RunningPass.decInv_raiseParse {cfg : Config} {u : State} (h : RunningPass cfg u) :
    DecInv cfg (raiseParse u).dec (raiseParse u).rcd := h.decInv_goto nofun nofun nofun nofun

/-- GET_CHECKSUM asks nothing more of a running pass. -/
theorem RunningPass.decInv_goto_getChecksum {cfg : Config} {u : State} (h : RunningPass cfg u) :
    DecInv cfg (goto .getChecksum u).dec (goto .getChecksum u).rcd := h.decInv_goto nofun nofun nofun nofun

/-- A pass ends with a terminal status, and with the validity flag that goes with it (R15, R36). -/
theorem decInv_finish {cfg : Config} {u : State} {x : DecStatus} (hx : x.terminal = true)
    (hv : u.rcd.valid = decide (x = .successful)) (hrd : u.dec.rdPtr ≤ cfg.lineCap) (hd : u.dec.didx ≤ cfg.maxDataBytes)
    (hp : u.rcd.pay.wf payUnlisted cfg.maxDataBytes = true) : DecInv cfg (finish x u).dec (finish x u).rcd where
  rdPtr_le := hrd
  didx_le := hd
  status_fits := by
    cases x with
    | idle => exact absurd hx (by decide)
    | busy => exact absurd hx (by decide)
    | successful => rfl
    | checksumError => rfl
    | parseError => rfl
    | invalidDigit => rfl
  valid_fits := by
    cases x with
    | idle => trivial
    | busy => exact absurd hx (by decide)
    | successful => exact hv
    | checksumError => exact hv
    | parseError => exact hv
    | invalidDigit => exact hv
  header_didx := nofun
  data_bounds := nofun
  ext_type := nofun
  pay_wf := hp

/-- A running pass ends with an error, the validity flag clear (R156, R143). -/
theorem RunningPass.decInv_finish_error {cfg : Config} {u : State} (h : RunningPass cfg u) {x : DecStatus}
    (hx : x.terminal = true) (hne : x ≠ .successful) : DecInv cfg (finish x u).dec (finish x u).rcd :=
  decInv_finish hx (by simp only [h.invalid, hne, decide_false]) h.rdPtr_le h.didx_le h.pay_wf

/-- A pass goes on over a field read inside the line: the cursor and the running sum move, and the record takes a write
that leaves the validity flag and a canonical payload (R39, R126). -/
theorem RunningPass.readInto {cfg : Config} {u : State} (h : RunningPass cfg u) {n : Nat} {bs : List Byte}
    (hn : u.dec.rdPtr + n ≤ cfg.lineCap) (r : Record) (hv : r.valid = u.rcd.valid)
    (hp : r.pay.wf payUnlisted cfg.maxDataBytes = true) :
    RunningPass cfg (advance n (accumulate bs (u.setRcd r))) :=
  { h with invalid := hv.trans h.invalid, rdPtr_le := hn, pay_wf := hp }

/-- A pass goes on over a payload byte counted within the store (R155). -/
theorem RunningPass.setDidx {cfg : Config} {u : State} (h : RunningPass cfg u) {k : Nat} (hk : k ≤ cfg.maxDataBytes) :
    RunningPass cfg (u.setDec { u.dec with didx := k }) := { h with didx_le := hk }

/-- A field step of a running pass keeps the decoder's half of the invariant if its writes do: a short line goes to ERROR,
a bad digit ends the pass (R142, R143). -/
theorem decInv_of_withField {n : Nat} {s d : State} {f : List Byte → State} (hl : LineInv s.cfg s.la)
    (hp : RunningPass s.cfg s) (hd : withField n s (fun bs => .next (f bs)) = .next d)
    (hf : ∀ bs, s.dec.rdPtr + 2 * n ≤ s.cfg.lineCap → DecInv s.cfg (f bs).dec (f bs).rcd) :
    DecInv s.cfg d.dec d.rcd := by
  obtain ⟨_, rfl⟩ | ⟨_, rfl⟩ | ⟨bs, hle, _, _, hk⟩ := withField_next hd
  · exact hp.decInv_raiseParse
  · exact hp.decInv_finish_error rfl nofun
  · cases hk
    exact hf bs (hle.trans hl.lineLen_le)

/-- The branch of GET_TYPE goes to GET_DATA with a length it has checked, and to GET_EXT with an address record's type
(R149 to R152). -/
theorem RunningPass.decInv_branchOnType {cfg : Config} {u : State} {t : Byte} (h : RunningPass cfg u) (hcfg : u.cfg = cfg)
    (ht : u.rcd.type = t) (hdidx : u.dec.didx = 0) :
    DecInv cfg (branchOnType t u).dec (branchOnType t u).rcd := by
  obtain ⟨h0, hle, hne, e⟩ | ⟨_, _, e⟩ | ⟨_, e⟩ | ⟨hx, e⟩ | ⟨_, e⟩ := branchOnType_cases t u <;> rw [e]
  · have hpos : 0 < u.rcd.length.toNat := Nat.pos_of_ne_zero fun hz => hne (BitVec.eq_of_toNat_eq hz)
    exact h.decInv_goto nofun nofun (fun _ => ⟨hpos, hcfg ▸ hle, ht.trans h0, hdidx ▸ hpos⟩) nofun
  · exact h.decInv_goto_getChecksum
  · exact h.decInv_goto_getChecksum
  · refine h.decInv_goto nofun nofun nofun fun _ => ?_
    rw [ht]
    obtain ⟨_, hn | hn⟩ | ⟨h2, h3, h4, h5, _⟩ := extBytes_cases cfg t
    · exact Option.isSome_of_eq_some hn
    · exact Option.isSome_of_eq_some hn
    · simp only [h2, h3, h4, h5, or_self] at hx
  · exact h.decInv_raiseParse

/-! ### Each decoder step of a running pass -/

section
variable {s d : State}

/-- INIT (R145) zeroes the cursors and clears the validity flag. -/
theorem decInv_decInit (h : Inv s) (hb : s.dec.status = .busy) (hd : exec .decInit s = .next d) :
    DecInv s.cfg d.dec d.rcd := by
  cases hd
  have hp : RunningPass s.cfg ((s.setRcd s.rcd.cleared).setDec { s.dec with rdPtr := 0, didx := 0 }) :=
    { busy := hb, invalid := rfl, rdPtr_le := Nat.zero_le _, didx_le := Nat.zero_le _, pay_wf := h.decoder.pay_wf }
  exact hp.decInv_goto (k := .getLength) nofun (fun _ => rfl) nofun nofun

/-- GET_LENGTH (R146) goes to GET_ADDRESS with `didx` still 0. -/
theorem decInv_decGetLength (hl : LineInv s.cfg s.la) (hp : RunningPass s.cfg s) (h0 : s.dec.didx = 0)
    (hd : exec .decGetLength s = .next d) : DecInv s.cfg d.dec d.rcd :=
  decInv_of_withField hl hp hd fun bs hle =>
    (hp.readInto hle { s.rcd with length := .ofNat 8 (be bs) } rfl hp.pay_wf).decInv_goto (k := .getAddress)
      nofun (fun _ => h0) nofun nofun

/-- GET_ADDRESS (R147) goes to GET_TYPE with `didx` still 0. -/
theorem decInv_decGetAddress (hl : LineInv s.cfg s.la) (hp : RunningPass s.cfg s) (h0 : s.dec.didx = 0)
    (hd : exec .decGetAddress s = .next d) : DecInv s.cfg d.dec d.rcd :=
  decInv_of_withField hl hp hd fun bs hle =>
    (hp.readInto hle { s.rcd with address := .ofNat 16 (be bs) } rfl hp.pay_wf).decInv_goto (k := .getType)
      nofun (fun _ => h0) nofun nofun

/-- GET_TYPE (R148) branches on the type it has written. -/
theorem decInv_decGetType (hl : LineInv s.cfg s.la) (hp : RunningPass s.cfg s) (h0 : s.dec.didx = 0)
    (hd : exec .decGetType s = .next d) : DecInv s.cfg d.dec d.rcd :=
  decInv_of_withField hl hp hd fun bs hle =>
    (hp.readInto hle { s.rcd with type := .ofNat 8 (be bs) } rfl hp.pay_wf).decInv_branchOnType rfl rfl h0

/-- GET_DATA (R155) stays for as long as `didx` is below the length, and then goes to GET_CHECKSUM. -/
theorem decInv_decGetData (hl : LineInv s.cfg s.la) (hp : RunningPass s.cfg s)
    (hdata : 1 ≤ s.rcd.length.toNat ∧ s.rcd.length.toNat ≤ s.cfg.maxDataBytes ∧ s.rcd.type = 0x00#8 ∧
      s.dec.didx < s.rcd.length.toNat)
    (hd : exec .decGetData s = .next d) : DecInv s.cfg d.dec d.rcd := by
  obtain ⟨hpos, hlen, htype, hdidx⟩ := hdata
  have hroom : s.dec.didx < s.cfg.maxDataBytes := Nat.lt_of_lt_of_le hdidx hlen
  simp only [exec, execDecGetData, if_pos hroom] at hd
  refine decInv_of_withField hl hp hd fun bs hle => ?_
  have hread := hp.readInto (bs := bs) hle
    { s.rcd with pay := s.rcd.pay.write payUnlisted s.dec.didx (BitVec.ofNat 8 (be bs)) } rfl (write_wf hroom hp.pay_wf)
  refine (hread.setDidx hroom).decInv_goto ?_ ?_ ?_ ?_
  · split <;> nofun
  · split <;> nofun
  · split
    · nofun
    · next hne => exact fun _ => ⟨hpos, hlen, htype, Nat.lt_of_le_of_ne hdidx hne⟩
  · split <;> nofun

/-- GET_EXT (R157) goes to GET_CHECKSUM. -/
theorem decInv_decGetExt (hl : LineInv s.cfg s.la) (hp : RunningPass s.cfg s)
    (hext : (s.cfg.extBytes s.rcd.type).isSome) (hd : exec .decGetExt s = .next d) : DecInv s.cfg d.dec d.rcd := by
  obtain ⟨n, hn⟩ := Option.isSome_iff_exists.1 hext
  refine decInv_of_withField hl hp ((extField_eq_withField hn).symm.trans hd) fun bs hle => ?_
  obtain ⟨_, e⟩ | ⟨_, e⟩ := writeExt_cases s.rcd.type (BitVec.ofNat 32 (be bs)) s <;> rw [e]
  · exact (hp.readInto hle { s.rcd with offset := .ofNat 32 (be bs) } rfl hp.pay_wf).decInv_goto_getChecksum
  · exact (hp.readInto hle { s.rcd with start := .ofNat 32 (be bs) } rfl hp.pay_wf).decInv_goto_getChecksum

/-- GET_CHECKSUM (R162) ends the pass, with the validity flag that goes with the comparison. -/
theorem decInv_decGetChecksum (hl : LineInv s.cfg s.la) (hp : RunningPass s.cfg s)
    (hd : exec .decGetChecksum s = .next d) : DecInv s.cfg d.dec d.rcd :=
  decInv_of_withField hl hp hd fun bs hle => by
    cases hok : checksumMatches s.rcd.checksum (BitVec.ofNat 8 (be bs)) with
    | true => exact decInv_finish rfl rfl hle hp.didx_le hp.pay_wf
    | false => exact decInv_finish rfl rfl hle hp.didx_le hp.pay_wf

end

/-- A decoder step of a running pass keeps the decoder's half of the invariant, in every state (R145 to R163). -/
theorem Inv.decInv_decoderStep {s d : State} (h : Inv s) (hb : s.dec.status = .busy)
    (hd : exec (decStateInstr s.dec.state) s = .next d) : DecInv s.cfg d.dec d.rcd := by
  have hp := h.decoder.runningPass hb
  cases hk : s.dec.state <;> rw [hk] at hd hp
  case init => exact decInv_decInit h hb hd
  case getLength => exact decInv_decGetLength h.line (hp nofun) (h.decoder.header_didx (.inl hk)) hd
  case getAddress => exact decInv_decGetAddress h.line (hp nofun) (h.decoder.header_didx (.inr (.inl hk))) hd
  case getType => exact decInv_decGetType h.line (hp nofun) (h.decoder.header_didx (.inr (.inr hk))) hd
  case getData => exact decInv_decGetData h.line (hp nofun) (h.decoder.data_bounds hk) hd
  case getExt => exact decInv_decGetExt h.line (hp nofun) (h.decoder.ext_type hk) hd
  case getChecksum => exact decInv_decGetChecksum h.line (hp nofun) hd
  case error => cases hd; exact (hp nofun).decInv_finish_error rfl nofun
  case done =>
    have hfits := h.decoder.status_fits
    simp only [statusFits, hb] at hfits
    exact absurd hk hfits

/-- A cycle keeps the decoder's half of the invariant. -/
theorem Inv.decInv_cycle {x : CycleInput} {s t : State} (h : Inv s) (hc : cycle x s = .next t) :
    DecInv s.cfg t.dec t.rcd := by
  obtain ⟨_, e, er⟩ | ⟨_, e, er⟩ | ⟨hb, d, hd, e, er⟩ | ⟨e, er | er⟩ := cycle_dec_cases hc <;> rw [e, er]
  · exact h.decoder
  · exact h.decoder.start
  · exact h.decInv_decoderStep hb hd
  · exact decInv_reset h.decoder.pay_wf
  · exact decInv_reset (empty_wf _ _)

/-! ### The whole invariant -/

/-- Every cycle keeps the invariant, on any inputs (R43, R44). -/
theorem Inv.after_cycle {x : CycleInput} {s t : State} (h : Inv s) (hc : cycle x s = .next t) : Inv t where
  line := cycle_cfg hc ▸ h.line.after_cycle hc
  decoder := cycle_cfg hc ▸ h.decInv_cycle hc

/-- The invariant does not speak of the inputs to come. -/
theorem Inv.sampled {s : State} (h : Inv s) : Inv (sampled s) := ⟨h.line, h.decoder⟩

/-- Settles O46: the cycle answers, and keeps the invariant and a completed line. -/
theorem everyStepKeepsTheInvariant : Obligations.EveryStepKeepsTheInvariant := fun s h => by
  obtain ⟨t, ht⟩ := h.sampled.cycle_answers (nextInput s)
  exact ⟨t, ht, h.sampled.after_cycle ht, h.sampled.line.cycle_keeps_line ht⟩

/-- Settles O47: each half holds at reset, with nothing written and no pass running. -/
theorem resetHasTheInvariant : Obligations.ResetHasTheInvariant :=
  have hreset (c : Config) (ins : List CycleInput) : Inv (State.resetWith c ins) :=
    ⟨lineInv_reset (empty_wf _ _), decInv_reset (empty_wf _ _)⟩
  ⟨hreset _ _, hreset⟩

/-! ### The ports -/

/-- Every cell of `PAY` holds a byte, since an unlisted one reads as 0x00 (R37). -/
theorem payByte_isSome {s : State} {i : Nat} (h : i < s.cfg.maxDataBytes) : (s.payByte i).isSome := by
  simp only [State.payByte, if_pos h, Memory.read]
  split
  · rfl
  · rfl

/-- Past its last cell `PAY` holds nothing. -/
theorem payByte_eq_none {s : State} {i : Nat} (h : s.cfg.maxDataBytes ≤ i) : s.payByte i = none :=
  if_neg (Nat.not_lt.2 h)

/-- The port `rec_data` has one byte for each cell of `PAY`, in index order (R41). -/
theorem recData_eq_map (s : State) : recData s = (List.range s.cfg.maxDataBytes).map fun i => (s.payByte i).getD 0 := by
  rw [recData, List.filterMap_eq_map_iff_forall_eq_some]
  intro i hi
  obtain ⟨b, hb⟩ := Option.isSome_iff_exists.1 (payByte_isSome (List.mem_range.1 hi))
  rw [hb, Option.getD_some]

/-- The port `rec_data` is as wide as `PAY` (R41). -/
theorem length_recData (s : State) : (recData s).length = s.cfg.maxDataBytes := by
  rw [recData_eq_map, List.length_map, List.length_range]

/-- The port `rec_data` shows cell `i` of `PAY` at place `i` (R41). -/
theorem getElem?_recData (s : State) (i : Nat) : (recData s)[i]? = s.payByte i := by
  by_cases hi : i < s.cfg.maxDataBytes
  · obtain ⟨b, hb⟩ := Option.isSome_iff_exists.1 (payByte_isSome hi)
    simp only [recData_eq_map, List.getElem?_map, List.getElem?_range hi, Option.map_some, hb, Option.getD_some]
  · have hle := Nat.le_of_not_lt hi
    rw [payByte_eq_none hle, List.getElem?_eq_none (length_recData s ▸ hle)]

/-- A one-bit port shows 1 for a set flag. -/
theorem ofBool_eq_ite (b : Bool) : BitVec.ofBool b = if b = true then 1#1 else 0#1 := by
  cases b with
  | true => rfl
  | false => rfl

/-- Settles O50: each port is its register, `rec_data` cell by cell; no port reads `LB` or a cursor. -/
theorem portsShowTheRegisters : Obligations.PortsShowTheRegisters :=
  ⟨fun s => ⟨rfl, rfl, rfl, ofBool_eq_ite s.la.active, rfl, rfl, rfl, rfl, rfl, rfl, rfl, ofBool_eq_ite s.rcd.valid,
    length_recData s, getElem?_recData s⟩, fun _ _ _ _ _ => rfl⟩

end Sys2Proof.Machine

/-! The byte fed beside a decoder step (O42). Both halves of a cycle are computed from the state at its start (R56), and
the step alone owns the decoder and the record, so a FEED in place of a NOP changes nothing of theirs. -/

namespace Sys2Proof.Machine

/-- NOP writes nothing (R184). -/
theorem exec_nop (s : State) : exec .nop s = .next s := rfl

/-- FEED writes the Line Assembler alone (R181). -/
theorem exec_feed (b : Byte) (s : State) :
    exec (.feed b) s = .next (s.setLa (lineFeedByte s.cfg.lineCap b s.la)) := rfl

/-- While a pass runs, the decoder and the record after a cycle are those of the decoder step, and the rest is the
command's (R56, R180). -/
theorem commandCycle_busy_next {i : Instr} {s d c : State} (hb : s.dec.status = .busy) (hi : i ≠ .init)
    (hd : exec (decStateInstr s.dec.state) s = .next d) (hc : exec i s = .next c) :
    commandCycle i s = .next ((c.setDec d.dec).setRcd d.rcd) := by
  rw [commandCycle_busy hb hi, hd, hc, joinCycle_next]

/-- Settles O42: with a pass running both cycles take the decoder and the record from one decoder step, of the state before
the FEED; with none running neither command writes them. -/
theorem decoderStepIgnoresFeedOfItsCycle : Obligations.DecoderStepIgnoresFeedOfItsCycle := fun s b h => by
  by_cases hb : s.dec.status = .busy
  · obtain ⟨d, hd⟩ := h.decoderStep_answers
    exact ⟨_, _, commandCycle_busy_next hb nofun hd (exec_feed b s), commandCycle_busy_next hb nofun hd (exec_nop s),
      rfl, rfl⟩
  · exact ⟨_, _, (commandCycle_not_busy hb).trans (exec_feed b s), (commandCycle_not_busy hb).trans (exec_nop s),
      rfl, rfl⟩

end Sys2Proof.Machine

/-! The encoding family (O31 to O35). One lemma says what each decoder gives for each row of its format: the operation code
of a command word (R71), the classification of a fed byte (R80), the `dec_state` codes (R26, R82), and the record types,
whose unknown classes are ranges of the type byte (R76, R77). -/

namespace Sys2Proof

/-! ### Command words -/

/-- The operation code is the high field of a command word (R70). -/
@[simp] theorem cmdOp_append (op : BitVec 2) (d : Byte) : cmdOp (op ++ d) = op := BitVec.extractLsb'_append_eq_left

/-- The data byte is the low field of a command word (R70). -/
@[simp] theorem cmdData_append (op : BitVec 2) (d : Byte) : cmdData (op ++ d) = d := BitVec.extractLsb'_append_eq_right

/-- Operation code 0 is NOP (R71). -/
theorem decodeCommand_op0 (d : Byte) : decodeCommand (0#2 ++ d) = .nop := by
  simp only [decodeCommand, cmdOp_append, BitVec.toNat_ofNat, Nat.zero_mod]

/-- Operation code 1 is FEED, of the data byte as it is (R71). -/
theorem decodeCommand_op1 (d : Byte) : decodeCommand (1#2 ++ d) = .feed d := by
  simp [decodeCommand]

/-- Operation code 2 is DECODE (R71). -/
theorem decodeCommand_op2 (d : Byte) : decodeCommand (2#2 ++ d) = .decode := by
  simp [decodeCommand]

/-- Operation code 3 is INIT (R71). -/
theorem decodeCommand_op3 (d : Byte) : decodeCommand (3#2 ++ d) = .init := by
  simp [decodeCommand]

/-- Every command word is a well-formed command: no command restricts its operand (R73). -/
theorem wellFormed_decodeCommand (w : CmdWord) : WellFormed (decodeCommand w) = true := by
  obtain hw | hw | hw | hw := Machine.decodeCommand_cases w <;> rw [hw] <;> rfl

/-- The word of a FEED, written as `0x100 | b` (R84). -/
theorem cmdWord_feed (b : Byte) : cmdWord 1#2 b = 0x100#10 ||| b.setWidth 10 := BitVec.append_def 1#2 b

/-! ### Fed bytes (R80) -/

theorem classifyByte_start (full : Bool) : classifyByte false full startChar = .laStart := rfl

theorem classifyByte_discard {b : Byte} (full : Bool) (h : b ≠ startChar) :
    classifyByte false full b = .laDiscard b := if_neg h

theorem classifyByte_term (full : Bool) : classifyByte true full termChar = .laTerm := rfl

theorem classifyByte_store {b : Byte} (h : b ≠ termChar) : classifyByte true false b = .laStore b := if_neg h

theorem classifyByte_overflow {b : Byte} (h : b ≠ termChar) : classifyByte true true b = .laOverflow b := if_neg h

/-- The path of a fed byte takes the byte as its operand (R80). -/
theorem wellFormed_classifyByte (active full : Bool) (b : Byte) : WellFormed (classifyByte active full b) = true := by
  cases active with
  | false =>
    by_cases h : b = startChar
    · rw [h, classifyByte_start]; rfl
    · rw [classifyByte_discard full h]; exact bne_iff_ne.2 h
  | true =>
    by_cases h : b = termChar
    · rw [h, classifyByte_term]; rfl
    · cases full with
      | false => rw [classifyByte_store h]; exact bne_iff_ne.2 h
      | true => rw [classifyByte_overflow h]; exact bne_iff_ne.2 h

/-! ### Codes of `dec_state` (R26, R82) -/

theorem decStateOfCode_code (k : DecState) : decStateOfCode k.code = some k := by
  cases k with
  | init | getLength | getAddress | getType | getData | getExt | getChecksum | error | done => rfl

/-- The codes that name no state are 9 to 15. -/
theorem decStateOfCode_eq_none_iff {c : BitVec 4} : decStateOfCode c = none ↔ 9 ≤ c.toNat := by
  revert c; decide

theorem decode_decState_of_some {c : BitVec 4} {k : DecState} (h : decStateOfCode c = some k) :
    decode (.decState c) = .ok (decStateInstr k) := by simp only [decode, h]

theorem decode_decState_of_none {c : BitVec 4} (h : decStateOfCode c = none) :
    decode (.decState c) = .rejected (.reservedDecState c) := by simp only [decode, h]

/-- No operation of the decoder has an operand. -/
theorem wellFormed_decStateInstr (k : DecState) : WellFormed (decStateInstr k) = true := by
  cases k with
  | init | getLength | getAddress | getType | getData | getExt | getChecksum | error | done => rfl

/-! ### Record types (R76, R77) -/

/-- Masking the low `n` bits of a byte away leaves its high bits in place. -/
theorem toNat_and_allOnes_shiftLeft (b : Byte) (n : Nat) :
    (b &&& BitVec.allOnes 8 <<< n).toNat = b.toNat / 2 ^ n * 2 ^ n := by
  rw [← BitVec.shiftLeft_ushiftRight, BitVec.toNat_shiftLeft, BitVec.toNat_ushiftRight, Nat.shiftLeft_eq,
    Nat.shiftRight_eq_div_pow]
  exact Nat.mod_eq_of_lt (Nat.lt_of_le_of_lt (Nat.div_mul_le_self _ _) b.isLt)

/-- A class whose mask is the high bits fixes the type byte's quotient by the power of two that the mask leaves open. -/
theorem inClass_iff_div {n : Nat} {p b : Byte} (hp : p.toNat * 2 ^ n < 256) :
    inClass (BitVec.allOnes 8 <<< n) (p <<< n) b = true ↔ b.toNat / 2 ^ n = p.toNat := by
  have hshift : (p <<< n).toNat = p.toNat * 2 ^ n := by
    rw [BitVec.toNat_shiftLeft, Nat.shiftLeft_eq, Nat.mod_eq_of_lt hp]
  rw [inClass, beq_iff_eq, ← BitVec.toNat_inj, toNat_and_allOnes_shiftLeft, hshift,
    Nat.mul_left_inj (Nat.two_pow_pos n).ne']

section
variable {tt : Byte}

theorem inClass_06_iff : inClass 0xFE#8 0x06#8 tt = true ↔ 0x06 ≤ tt.toNat ∧ tt.toNat ≤ 0x07 :=
  (inClass_iff_div (n := 1) (p := 3#8) (by decide)).trans (by simp; omega)

theorem inClass_08_iff : inClass 0xF8#8 0x08#8 tt = true ↔ 0x08 ≤ tt.toNat ∧ tt.toNat ≤ 0x0F :=
  (inClass_iff_div (n := 3) (p := 1#8) (by decide)).trans (by simp; omega)

theorem inClass_10_iff : inClass 0xF0#8 0x10#8 tt = true ↔ 0x10 ≤ tt.toNat ∧ tt.toNat ≤ 0x1F :=
  (inClass_iff_div (n := 4) (p := 1#8) (by decide)).trans (by simp; omega)

theorem inClass_20_iff : inClass 0xE0#8 0x20#8 tt = true ↔ 0x20 ≤ tt.toNat ∧ tt.toNat ≤ 0x3F :=
  (inClass_iff_div (n := 5) (p := 1#8) (by decide)).trans (by simp; omega)

theorem inClass_40_iff : inClass 0xC0#8 0x40#8 tt = true ↔ 0x40 ≤ tt.toNat ∧ tt.toNat ≤ 0x7F :=
  (inClass_iff_div (n := 6) (p := 1#8) (by decide)).trans (by simp; omega)

theorem inClass_80_iff : inClass 0x80#8 0x80#8 tt = true ↔ 0x80 ≤ tt.toNat :=
  (inClass_iff_div (n := 7) (p := 1#8) (by decide)).trans (by simp; omega)

/-- The record type decoder, by the value of the type byte. -/
theorem decodeRecType_eq_of_toNat (tt : Byte) : decodeRecType tt =
    if tt.toNat = 0 then .recData
    else if tt.toNat = 1 then .recEof
    else if tt.toNat = 2 then .recExtSegmentAddress
    else if tt.toNat = 3 then .recStartSegmentAddress
    else if tt.toNat = 4 then .recExtLinearAddress
    else if tt.toNat = 5 then .recStartLinearAddress
    else if 0x06 ≤ tt.toNat ∧ tt.toNat ≤ 0x07 then .recUnknown06 tt
    else if 0x08 ≤ tt.toNat ∧ tt.toNat ≤ 0x0F then .recUnknown08 tt
    else if 0x10 ≤ tt.toNat ∧ tt.toNat ≤ 0x1F then .recUnknown10 tt
    else if 0x20 ≤ tt.toNat ∧ tt.toNat ≤ 0x3F then .recUnknown20 tt
    else if 0x40 ≤ tt.toNat ∧ tt.toNat ≤ 0x7F then .recUnknown40 tt
    else .recUnknown80 tt := by
  simp only [decodeRecType, ← BitVec.toNat_inj, inClass_06_iff, inClass_08_iff, inClass_10_iff, inClass_20_iff,
    inClass_40_iff]
  rfl

theorem decodeRecType_class06 (h : inClass 0xFE#8 0x06#8 tt = true) : decodeRecType tt = .recUnknown06 tt := by
  have hr := inClass_06_iff.1 h
  rw [decodeRecType_eq_of_toNat]
  simp (disch := omega) only [if_neg, if_pos]

theorem decodeRecType_class08 (h : inClass 0xF8#8 0x08#8 tt = true) : decodeRecType tt = .recUnknown08 tt := by
  have hr := inClass_08_iff.1 h
  rw [decodeRecType_eq_of_toNat]
  simp (disch := omega) only [if_neg, if_pos]

theorem decodeRecType_class10 (h : inClass 0xF0#8 0x10#8 tt = true) : decodeRecType tt = .recUnknown10 tt := by
  have hr := inClass_10_iff.1 h
  rw [decodeRecType_eq_of_toNat]
  simp (disch := omega) only [if_neg, if_pos]

theorem decodeRecType_class20 (h : inClass 0xE0#8 0x20#8 tt = true) : decodeRecType tt = .recUnknown20 tt := by
  have hr := inClass_20_iff.1 h
  rw [decodeRecType_eq_of_toNat]
  simp (disch := omega) only [if_neg, if_pos]

theorem decodeRecType_class40 (h : inClass 0xC0#8 0x40#8 tt = true) : decodeRecType tt = .recUnknown40 tt := by
  have hr := inClass_40_iff.1 h
  rw [decodeRecType_eq_of_toNat]
  simp (disch := omega) only [if_neg, if_pos]

theorem decodeRecType_class80 (h : inClass 0x80#8 0x80#8 tt = true) : decodeRecType tt = .recUnknown80 tt := by
  have hr := inClass_80_iff.1 h
  rw [decodeRecType_eq_of_toNat]
  simp (disch := omega) only [if_neg]

/-- A type byte is one of the six types of R76, or an unknown one. -/
theorem recType_cases (tt : Byte) : tt = 0x00#8 ∨ tt = 0x01#8 ∨
    (tt = 0x02#8 ∨ tt = 0x03#8 ∨ tt = 0x04#8 ∨ tt = 0x05#8) ∨ 0x06 ≤ tt.toNat := by
  simp only [← BitVec.toNat_inj, BitVec.toNat_ofNat]
  omega

/-- An unknown type byte lies in one of the six classes of R77, and decodes to that class's row. -/
theorem decodeRecType_unknown_cases (h : 0x06 ≤ tt.toNat) :
    (inClass 0xFE#8 0x06#8 tt = true ∧ decodeRecType tt = .recUnknown06 tt) ∨
    (inClass 0xF8#8 0x08#8 tt = true ∧ decodeRecType tt = .recUnknown08 tt) ∨
    (inClass 0xF0#8 0x10#8 tt = true ∧ decodeRecType tt = .recUnknown10 tt) ∨
    (inClass 0xE0#8 0x20#8 tt = true ∧ decodeRecType tt = .recUnknown20 tt) ∨
    (inClass 0xC0#8 0x40#8 tt = true ∧ decodeRecType tt = .recUnknown40 tt) ∨
    (inClass 0x80#8 0x80#8 tt = true ∧ decodeRecType tt = .recUnknown80 tt) := by
  have hclass : inClass 0xFE#8 0x06#8 tt = true ∨ inClass 0xF8#8 0x08#8 tt = true ∨ inClass 0xF0#8 0x10#8 tt = true ∨
      inClass 0xE0#8 0x20#8 tt = true ∨ inClass 0xC0#8 0x40#8 tt = true ∨ inClass 0x80#8 0x80#8 tt = true := by
    rw [inClass_06_iff, inClass_08_iff, inClass_10_iff, inClass_20_iff, inClass_40_iff, inClass_80_iff]
    omega
  exact hclass.imp (fun h => ⟨h, decodeRecType_class06 h⟩) <| .imp (fun h => ⟨h, decodeRecType_class08 h⟩) <|
    .imp (fun h => ⟨h, decodeRecType_class10 h⟩) <| .imp (fun h => ⟨h, decodeRecType_class20 h⟩) <|
    .imp (fun h => ⟨h, decodeRecType_class40 h⟩) fun h => ⟨h, decodeRecType_class80 h⟩

end

/-- The row of a record type takes the type byte as its operand (R77). -/
theorem wellFormed_decodeRecType (tt : Byte) : WellFormed (decodeRecType tt) = true := by
  obtain rfl | rfl | (rfl | rfl | rfl | rfl) | h := recType_cases tt
  · rfl
  · rfl
  · rfl
  · rfl
  · rfl
  · rfl
  · obtain ⟨hc, e⟩ | ⟨hc, e⟩ | ⟨hc, e⟩ | ⟨hc, e⟩ | ⟨hc, e⟩ | ⟨hc, e⟩ := decodeRecType_unknown_cases h <;>
      exact e ▸ hc

/-! ### The obligations -/

/-- Settles O31: a row without an operand has one closed code, and a row's operand comes back because it lies in the row's
class. -/
theorem decodeEncodeRoundTrip : Obligations.DecodeEncodeRoundTrip := fun i h => by
  cases i
  case feed b => exact congrArg Decoded.ok (decodeCommand_op1 b)
  case laDiscard b => exact congrArg Decoded.ok (classifyByte_discard false (bne_iff_ne.1 h))
  case laStore b => exact congrArg Decoded.ok (classifyByte_store (bne_iff_ne.1 h))
  case laOverflow b => exact congrArg Decoded.ok (classifyByte_overflow (bne_iff_ne.1 h))
  case recUnknown06 tt => exact congrArg Decoded.ok (decodeRecType_class06 h)
  case recUnknown08 tt => exact congrArg Decoded.ok (decodeRecType_class08 h)
  case recUnknown10 tt => exact congrArg Decoded.ok (decodeRecType_class10 h)
  case recUnknown20 tt => exact congrArg Decoded.ok (decodeRecType_class20 h)
  case recUnknown40 tt => exact congrArg Decoded.ok (decodeRecType_class40 h)
  case recUnknown80 tt => exact congrArg Decoded.ok (decodeRecType_class80 h)
  all_goals rfl

/-- What the decoder gives is well formed, in each of the four formats. -/
theorem wellFormed_of_decode {c : CodeWord} {i : Instr} (h : decode c = .ok i) : WellFormed i = true := by
  cases c with
  | cmd w => cases h; exact wellFormed_decodeCommand w
  | laByte active full b => cases h; exact wellFormed_classifyByte active full b
  | decState c =>
    cases hk : decStateOfCode c with
    | some k => cases (decode_decState_of_some hk).symm.trans h; exact wellFormed_decStateInstr k
    | none => cases (decode_decState_of_none hk).symm.trans h
  | recType tt => cases h; exact wellFormed_decodeRecType tt

/-- Settles O32: the row decoded to is well formed, so its code decodes to it (O31), as the code at hand did. -/
theorem decodedInstructionsAreWellFormed : Obligations.DecodedInstructionsAreWellFormed := fun _ i h =>
  have hw := wellFormed_of_decode h
  ⟨hw, (decodeEncodeRoundTrip i hw).trans h.symm⟩

/-- Settles O33: the decoders of three formats are total, and that of `dec_state` codes rejects 9 to 15. -/
theorem onlyReservedStatesAreRejected : Obligations.OnlyReservedStatesAreRejected := fun c e => by
  constructor
  · intro h
    cases c with
    | cmd w => cases h
    | laByte active full b => cases h
    | recType tt => cases h
    | decState k =>
      cases hk : decStateOfCode k with
      | some d => cases (decode_decState_of_some hk).symm.trans h
      | none =>
        cases (decode_decState_of_none hk).symm.trans h
        exact ⟨k, decStateOfCode_eq_none_iff.1 hk, rfl, rfl⟩
  · rintro ⟨k, hk, rfl, rfl⟩
    exact decode_decState_of_none (decStateOfCode_eq_none_iff.2 hk)

/-- Settles O34: one operation code each. -/
theorem commandWordDecodes : Obligations.CommandWordDecodes :=
  ⟨fun d => ⟨decodeCommand_op0 d, decodeCommand_op1 d, decodeCommand_op2 d, decodeCommand_op3 d⟩, rfl, rfl, rfl⟩

/-- Settles O35: the word of a FEED for every byte, and the closed codes by evaluation. -/
theorem writtenWordsDecode : Obligations.WrittenWordsDecode :=
  ⟨rfl, fun b => congrArg CodeWord.cmd (cmdWord_feed b), rfl, rfl, rfl, rfl, rfl, rfl, rfl, rfl, rfl, rfl, rfl⟩

end Sys2Proof

/-! The paths that R80 selects (O2, O9), the rows that a record type selects (O16), and the idle cycle (O37). -/

namespace Sys2Proof.Machine

/-! ### Line Assembler paths -/

/-- LA_STORE with a cell left stores the byte (R103). -/
theorem exec_laStore_of_lt {s : State} (b : Byte) (h : s.la.wrPtr < s.cfg.lineCap) :
    exec (.laStore b) s = .next (s.setLa (lineStore b s.la)) := if_pos h

/-- Settles O2: on each of the five paths of a fed byte, the path that R80 selects is the one FEED takes. -/
theorem feedRunsTheSelectedPath : Obligations.FeedRunsTheSelectedPath := fun s b hle => by
  rw [exec_feed]
  obtain ⟨ha, rfl, e⟩ | ⟨ha, hb, e⟩ | ⟨ha, rfl, e⟩ | ⟨ha, hb, hw, e⟩ | ⟨ha, hb, hw, e⟩ :=
    lineFeedByte_cases s.cfg.lineCap b s.la <;> rw [e, ha]
  · rw [classifyByte_start]; rfl
  · rw [classifyByte_discard _ hb]; rfl
  · rw [classifyByte_term]; rfl
  · rw [decide_eq_false hw.ne, classifyByte_store hb, exec_laStore_of_lt b hw]
  · rw [decide_eq_true (hle.antisymm hw), classifyByte_overflow hb]; rfl

/-- Settles O9: four of the rows have no condition, and LA_STORE has that of its cell. -/
theorem pathsRunWhereverSelected : Obligations.PathsRunWhereverSelected := fun _ b =>
  ⟨rfl, rfl, rfl, rfl,
   fun h => ⟨_, exec_laStore_of_lt b h, (lineStore_lineByte b h _).trans (if_pos rfl),
     fun i hi => (lineStore_lineByte b h i).trans (if_neg hi), rfl, rfl, rfl, rfl, rfl, rfl, rfl, rfl⟩,
   exec_laStore_full b⟩

/-! ### Record type rows -/

/-- An unknown type takes the last branch (R152). -/
theorem branchOnType_unknown {t : Byte} (h : 0x06 ≤ t.toNat) (s : State) : branchOnType t s = branchUnknown s := by
  simp only [branchOnType, ← BitVec.toNat_inj, BitVec.toNat_ofNat]
  simp (disch := omega) only [if_neg]

/-- An unknown type's row is GET_TYPE's branch for it (R77, R152). -/
theorem exec_decodeRecType_unknown {t : Byte} (h : 0x06 ≤ t.toNat) (s : State) :
    exec (decodeRecType t) s = .next (branchUnknown s) := by
  obtain ⟨_, e⟩ | ⟨_, e⟩ | ⟨_, e⟩ | ⟨_, e⟩ | ⟨_, e⟩ | ⟨_, e⟩ := decodeRecType_unknown_cases h <;> rw [e] <;> rfl

/-- An address record's row is `addressRecord` of its type (R158 to R161). -/
theorem exec_decodeRecType_address {t : Byte} (h : t = 0x02#8 ∨ t = 0x03#8 ∨ t = 0x04#8 ∨ t = 0x05#8) (s : State) :
    exec (decodeRecType t) s = addressRecord t s := by
  obtain rfl | rfl | rfl | rfl := h <;> rfl

/-- Away from GET_EXT, the row of a record type is GET_TYPE's branch on it (R148 to R152). -/
theorem exec_decodeRecType {t : Byte} {s : State} (hs : s.dec.state ≠ .getExt) :
    exec (decodeRecType t) s = .next (branchOnType t s) := by
  obtain rfl | rfl | h | h := recType_cases t
  · rfl
  · rfl
  · rw [exec_decodeRecType_address h, addressRecord, if_neg hs]
    obtain rfl | rfl | rfl | rfl := h <;> rfl
  · rw [exec_decodeRecType_unknown h, branchOnType_unknown h]

/-- GET_TYPE with its byte read: the type's writes, then the branch (R148). -/
theorem exec_decGetType_of_fieldBytes {s : State} {t : Byte} (h : FieldBytes 1 s [t]) :
    exec .decGetType s = .next (branchOnType t { s with
      rcd := { s.rcd with type := t, checksum := s.rcd.checksum + t }
      dec := { s.dec with rdPtr := s.dec.rdPtr + 2 } }) := by
  obtain ⟨cs, ⟨hb, hlen, hcs⟩, hp⟩ := h
  simp only [exec, execDecGetType, withField_chars hb hlen hcs, hp, be_single, BitVec.ofNat_toNat, BitVec.setWidth_eq,
    accumulate, sum8_single]
  rfl

/-- Settles O16: GET_TYPE is the row's branch after its writes, which leave `dec_state`; GET_EXT is the field of the address
record that `rec_type` must name for its width to be defined. -/
theorem typeSelectsItsRow : Obligations.TypeSelectsItsRow := by
  refine ⟨fun s t hf hs => ?_, fun s hs hx => ?_⟩
  · refine (exec_decGetType_of_fieldBytes hf).trans (exec_decodeRecType ?_).symm
    exact hs.trans_ne nofun
  · obtain ⟨ht, _⟩ | ⟨_, _, _, _, hnone⟩ := extBytes_cases s.cfg s.rcd.type
    · rw [exec_decodeRecType_address ht, addressRecord, if_pos hs]
      rfl
    · rw [hnone] at hx
      cases hx

/-! ### The idle cycle -/

/-- Settles O37: with nothing driven a step is a NOP cycle, and NOP with no pass running writes nothing. -/
theorem idleCycleIsNop : Obligations.IdleCycleIsNop := fun s h =>
  ⟨step_of_no_inputs h, fun hb => (step_of_no_inputs h).trans ((commandCycle_not_busy hb).trans (exec_nop s))⟩

end Sys2Proof.Machine

/-! Trace lines (O58). WAITDEC ends because every cycle of a running pass lowers `stepsLeft`, a bound on the decoder steps
that the pass can still take, and that bound is at most the longest pass (R86, R250). -/

namespace Sys2Proof.Machine

/-! ### The steps a pass can still take -/

/-- GET_EXT with the cursor at `rd`: its field can only be read where the buffer has room for the shortest one (R8), and
GET_CHECKSUM and ERROR can then follow; else ERROR alone does. -/
def extStepsLeft (cfg : Config) (rd : Nat) : Nat := if rd + 4 ≤ cfg.lineCap then 3 else 2

/-- After GET_TYPE, with the cursor at `rd`: a payload of MAX_DATA_BYTES, or the field of an address record. -/
def bodyStepsLeft (cfg : Config) (rd : Nat) : Nat := max (cfg.maxDataBytes + 2) (extStepsLeft cfg rd)

/-- A bound on the steps that a running pass can still take, the ERROR step included (R165, R250). -/
def stepsLeft (cfg : Config) (d : Decoder) (r : Record) : Nat :=
  match d.state with
  | .init => cfg.maxDataBytes + 6
  | .getLength => bodyStepsLeft cfg (d.rdPtr + 8) + 3
  | .getAddress => bodyStepsLeft cfg (d.rdPtr + 6) + 2
  | .getType => bodyStepsLeft cfg (d.rdPtr + 2) + 1
  | .getData => r.length.toNat - d.didx + 2
  | .getExt => extStepsLeft cfg d.rdPtr
  | .getChecksum => 2
  | .error => 1
  | .done => 0

theorem extStepsLeft_bounds (cfg : Config) (rd : Nat) : 2 ≤ extStepsLeft cfg rd ∧ extStepsLeft cfg rd ≤ 3 := by
  unfold extStepsLeft
  split <;> omega

/-- The body of a pass takes no more than its longest payload and two steps more, or an address record's three. -/
theorem bodyStepsLeft_bounds (cfg : Config) (rd : Nat) :
    cfg.maxDataBytes + 2 ≤ bodyStepsLeft cfg rd ∧ extStepsLeft cfg rd ≤ bodyStepsLeft cfg rd ∧
      bodyStepsLeft cfg rd ≤ cfg.maxDataBytes + 3 := by
  have hext := (extStepsLeft_bounds cfg rd).2
  unfold bodyStepsLeft
  omega

/-- Without payload cells, the line of a whole pass has no room for an address field either. -/
theorem bodyStepsLeft_eight (cfg : Config) : bodyStepsLeft cfg 8 = cfg.maxDataBytes + 2 := by
  unfold bodyStepsLeft extStepsLeft Config.lineCap
  split <;> omega

/-- From the invariant, a pass takes no more steps than the longest one (R250). -/
theorem Inv.stepsLeft_le_longestPass {s : State} (h : Inv s) :
    stepsLeft s.cfg s.dec s.rcd ≤ Config.longestPass s.cfg := by
  unfold stepsLeft Config.longestPass
  cases hk : s.dec.state with
  | init => exact Nat.le_refl _
  | getLength => have := bodyStepsLeft_bounds s.cfg (s.dec.rdPtr + 8); simp only; omega
  | getAddress => have := bodyStepsLeft_bounds s.cfg (s.dec.rdPtr + 6); simp only; omega
  | getType => have := bodyStepsLeft_bounds s.cfg (s.dec.rdPtr + 2); simp only; omega
  | getData => have := h.decoder.data_bounds hk; simp only; omega
  | getExt => have := extStepsLeft_bounds s.cfg s.dec.rdPtr; simp only; omega
  | getChecksum => simp only; omega
  | error => simp only; omega
  | done => simp only; omega

/-- A running pass has a step to take. -/
theorem Inv.stepsLeft_pos {s : State} (h : Inv s) (hb : s.dec.status = .busy) : 0 < stepsLeft s.cfg s.dec s.rcd := by
  unfold stepsLeft
  cases hk : s.dec.state with
  | getExt => exact Nat.lt_of_lt_of_le Nat.two_pos (extStepsLeft_bounds s.cfg s.dec.rdPtr).1
  | done =>
    have hfits := h.decoder.status_fits
    simp only [statusFits, hb] at hfits
    exact absurd hk hfits
  | init | getLength | getAddress | getType | getData | getChecksum | error => exact Nat.succ_pos _

/-! ### Each decoder step takes one of them -/

/-- The pass of state `d` has ended, or has fewer than `m` steps left. -/
def EndedOrFewer (cfg : Config) (m : Nat) (d : State) : Prop :=
  d.dec.status ≠ .busy ∨ stepsLeft cfg d.dec d.rcd < m

/-- A field step takes a step if its own writes do: a short line leaves only the ERROR step, and a bad digit ends the
pass (R142, R143). -/
theorem endedOrFewer_of_withField {n m : Nat} {s d : State} {f : List Byte → State} (hl : LineInv s.cfg s.la)
    (hm : 2 ≤ m) (hd : withField n s (fun bs => .next (f bs)) = .next d)
    (hf : ∀ bs, s.dec.rdPtr + 2 * n ≤ s.cfg.lineCap → EndedOrFewer s.cfg m (f bs)) : EndedOrFewer s.cfg m d := by
  obtain ⟨_, rfl⟩ | ⟨_, rfl⟩ | ⟨bs, hle, _, _, hk⟩ := withField_next hd
  · exact .inr hm
  · exact .inl nofun
  · cases hk
    exact hf bs (hle.trans hl.lineLen_le)

/-- Wherever GET_TYPE branches to, no more than the body of a pass is left (R149 to R152). -/
theorem stepsLeft_branchOnType_le (t : Byte) {u : State} {cfg : Config} (hcfg : u.cfg = cfg) :
    stepsLeft cfg (branchOnType t u).dec (branchOnType t u).rcd ≤ bodyStepsLeft cfg u.dec.rdPtr := by
  have hbody := bodyStepsLeft_bounds cfg u.dec.rdPtr
  obtain ⟨_, hle, _, e⟩ | ⟨_, _, e⟩ | ⟨_, e⟩ | ⟨_, e⟩ | ⟨_, e⟩ := branchOnType_cases t u <;> rw [e]
  · show u.rcd.length.toNat - u.dec.didx + 2 ≤ _
    rw [hcfg] at hle
    omega
  · show 2 ≤ _
    omega
  · show 2 ≤ _
    omega
  · exact hbody.2.1
  · show 1 ≤ _
    omega

/-- The address field of an address record has at least two bytes (R8). -/
theorem two_le_of_extBytes {cfg : Config} {t : Byte} {n : Nat} (h : cfg.extBytes t = some n) : 2 ≤ n := by
  obtain ⟨_, hn | hn⟩ | ⟨_, _, _, _, hn⟩ := extBytes_cases cfg t <;> cases h.symm.trans hn
  · exact Nat.le_refl 2
  · omega

section
variable {s d : State}

/-- INIT puts the cursor at the start of the line, where the pass has its longest body before it (R145). -/
theorem endedOrFewer_decInit (hd : exec .decInit s = .next d) : EndedOrFewer s.cfg (s.cfg.maxDataBytes + 6) d := by
  cases hd
  have hleft : bodyStepsLeft s.cfg 8 + 3 < s.cfg.maxDataBytes + 6 := by
    rw [bodyStepsLeft_eight]
    exact Nat.lt_succ_self _
  exact .inr hleft

/-- GET_DATA counts a payload byte, and goes on to GET_CHECKSUM from the last one (R155). -/
theorem endedOrFewer_decGetData (h : Inv s) (hk : s.dec.state = .getData) (hd : exec .decGetData s = .next d) :
    EndedOrFewer s.cfg (s.rcd.length.toNat - s.dec.didx + 2) d := by
  obtain ⟨_, hlen, _, hdidx⟩ := h.decoder.data_bounds hk
  simp only [exec, execDecGetData, if_pos (Nat.lt_of_lt_of_le hdidx hlen)] at hd
  refine endedOrFewer_of_withField h.line (Nat.le_add_left _ _) hd fun bs _ => .inr ?_
  split
  · show 2 < _
    omega
  · show s.rcd.length.toNat - (s.dec.didx + 1) + 2 < _
    omega

/-- GET_EXT goes on to GET_CHECKSUM only over a field that the buffer had room for (R157). -/
theorem endedOrFewer_decGetExt (h : Inv s) (hk : s.dec.state = .getExt) (hd : exec .decGetExt s = .next d) :
    EndedOrFewer s.cfg (extStepsLeft s.cfg s.dec.rdPtr) d := by
  obtain ⟨n, hn⟩ := Option.isSome_iff_exists.1 (h.decoder.ext_type hk)
  refine endedOrFewer_of_withField h.line (extStepsLeft_bounds _ _).1 ((extField_eq_withField hn).symm.trans hd)
    fun bs hle => .inr ?_
  have htwo := two_le_of_extBytes hn
  rw [extStepsLeft, if_pos (by omega)]
  exact Nat.lt_succ_self 2

/-- GET_CHECKSUM with its byte read ends the pass, whatever the comparison gives (R162). -/
theorem endedOrFewer_decGetChecksum (h : Inv s) (hd : exec .decGetChecksum s = .next d) : EndedOrFewer s.cfg 2 d :=
  endedOrFewer_of_withField h.line (Nat.le_refl 2) hd fun bs _ => .inl (by
    show (if _ then DecStatus.successful else .checksumError) ≠ .busy
    split <;> nofun)

end

/-- A decoder step of a running pass ends it or leaves it fewer steps (R145 to R163). -/
theorem Inv.endedOrFewer_decoderStep {s d : State} (h : Inv s) (hb : s.dec.status = .busy)
    (hd : exec (decStateInstr s.dec.state) s = .next d) : EndedOrFewer s.cfg (stepsLeft s.cfg s.dec s.rcd) d := by
  have hpos := h.stepsLeft_pos hb
  unfold stepsLeft at hpos ⊢
  cases hk : s.dec.state <;> simp only [hk] at hd hpos ⊢
  case init => exact endedOrFewer_decInit hd
  case getLength =>
    exact endedOrFewer_of_withField h.line (Nat.le_add_left 2 _) hd fun _ _ => .inr (Nat.lt_succ_self _)
  case getAddress =>
    exact endedOrFewer_of_withField h.line (Nat.le_add_left 2 _) hd fun _ _ => .inr (Nat.lt_succ_self _)
  case getType =>
    have hbody := (bodyStepsLeft_bounds s.cfg (s.dec.rdPtr + 2)).1
    exact endedOrFewer_of_withField h.line (by omega) hd fun _ _ =>
      .inr (Nat.lt_succ_of_le (stepsLeft_branchOnType_le _ rfl))
  case getData => exact endedOrFewer_decGetData h hk hd
  case getExt => exact endedOrFewer_decGetExt h hk hd
  case getChecksum => exact endedOrFewer_decGetChecksum h hd
  case error => cases hd; exact .inl nofun
  case done => exact absurd hpos (Nat.lt_irrefl 0)

/-- Every cycle of a running pass ends it or leaves it fewer steps, on any inputs: INIT and reset end it (R180). -/
theorem Inv.endedOrFewer_cycle {x : CycleInput} {s t : State} (h : Inv s) (hb : s.dec.status = .busy)
    (hc : cycle x s = .next t) : EndedOrFewer s.cfg (stepsLeft s.cfg s.dec s.rcd) t := by
  obtain ⟨hn, _⟩ | ⟨hn, _⟩ | ⟨_, d, hd, e, er⟩ | ⟨e, _⟩ := cycle_dec_cases hc
  · exact absurd hb hn
  · exact absurd hb hn
  · rw [EndedOrFewer, e, er]
    exact h.endedOrFewer_decoderStep hb hd
  · exact .inl (e ▸ nofun)

/-! ### WAITDEC (R86) -/

theorem runWords_cons {w : CmdWord} {ws : List CmdWord} {s t : State}
    (h : cycle { rst := false, cmd := w } s = .next t) : runWords (w :: ws) s = runWords ws t := by
  rw [runWords, h]

theorem waitDec_of_not_busy {s : State} (n : Nat) (h : s.dec.status ≠ .busy) : waitDec n s = .next s := by
  cases n with
  | zero => rfl
  | succ n => exact if_neg h

theorem waitDec_succ_of_busy {n : Nat} {s t : State} (hb : s.dec.status = .busy)
    (h : cycle { rst := false, cmd := nopWord } s = .next t) : waitDec (n + 1) s = waitDec n t := by
  rw [waitDec, if_pos hb, h]

/-- WAITDEC with as many NOP cycles to spend as the pass has steps left is some of those cycles, and ends the pass. -/
theorem Inv.waitDec_ends : ∀ {n : Nat} {s : State}, Inv s →
    (s.dec.status = .busy → stepsLeft s.cfg s.dec s.rcd ≤ n) →
    ∃ k t, k ≤ n ∧ waitDec n s = .next t ∧ runWords (List.replicate k nopWord) s = .next t ∧ t.dec.status ≠ .busy
  | 0, s, h, hn => by
    have hb : s.dec.status ≠ .busy := fun hb => absurd (h.stepsLeft_pos hb) (Nat.not_lt.2 (hn hb))
    exact ⟨0, s, Nat.le_refl 0, rfl, rfl, hb⟩
  | n + 1, s, h, hn => by
    by_cases hb : s.dec.status = .busy
    · obtain ⟨u, hu⟩ := h.cycle_answers { rst := false, cmd := nopWord }
      have hleft : u.dec.status = .busy → stepsLeft u.cfg u.dec u.rcd ≤ n := fun hbu => by
        rw [cycle_cfg hu]
        have hfewer := (h.endedOrFewer_cycle hb hu).resolve_left (not_not_intro hbu)
        exact Nat.le_of_lt_succ (Nat.lt_of_lt_of_le hfewer (hn hb))
      obtain ⟨k, t, hk, hw, hr, ht⟩ := (h.after_cycle hu).waitDec_ends hleft
      exact ⟨k + 1, t, Nat.succ_le_succ hk, (waitDec_succ_of_busy hb hu).trans hw, (runWords_cons hu).trans hr, ht⟩
    · exact ⟨0, s, Nat.zero_le _, waitDec_of_not_busy _ hb, rfl, hb⟩

/-- The words of a FEED, as R84 writes them. -/
theorem feedWord_eq_or : feedWord = fun b => 0x100#10 ||| b.setWidth 10 := funext cmdWord_feed

/-- Settles O58: the expansions are the words of R84, and WAITDEC has the longest pass to spend, which from the invariant is
enough. -/
theorem traceLinesExpand : Obligations.TraceLinesExpand :=
  ⟨fun text => ⟨_, rfl, by simp, by rw [feedWord_eq_or]; rfl⟩, fun _ => by rw [← feedWord_eq_or]; rfl, fun _ => rfl,
   fun _ h => h.waitDec_ends fun _ => h.stepsLeft_le_longestPass⟩

end Sys2Proof.Machine

/-! The Line Assembler family (O3 to O8, O51 to O53). Each path of a fed byte has its equation, and bytes fed one per cycle
fold the Line Assembler over them, whatever the decoder does beside (R56, R100). Noise folds to one LA_DISCARD; a line's
characters keep `Receiving`, which says what has been received of the line so far. -/

namespace Sys2Proof.Machine

/-! ### The path of one fed byte -/

theorem lineFeedByte_start (cap : Nat) {l : LineAsm} (ha : l.active = false) :
    lineFeedByte cap startChar l = lineStart l := by
  rw [lineFeedByte, if_pos ha, if_pos rfl]

theorem lineFeedByte_discard (cap : Nat) {b : Byte} {l : LineAsm} (ha : l.active = false) (hb : b ≠ startChar) :
    lineFeedByte cap b l = lineDiscard l := by
  rw [lineFeedByte, if_pos ha, if_neg hb]

theorem lineFeedByte_term (cap : Nat) {l : LineAsm} (ha : l.active = true) :
    lineFeedByte cap termChar l = lineTerm l := by
  rw [lineFeedByte, if_neg (ne_false_of_eq_true ha), if_pos rfl]

theorem lineFeedByte_store {cap : Nat} {b : Byte} {l : LineAsm} (ha : l.active = true) (hb : b ≠ termChar)
    (hw : l.wrPtr < cap) : lineFeedByte cap b l = lineStore b l := by
  rw [lineFeedByte, if_neg (ne_false_of_eq_true ha), if_neg hb, if_pos hw]

theorem lineFeedByte_overflow {cap : Nat} {b : Byte} {l : LineAsm} (ha : l.active = true) (hb : b ≠ termChar)
    (hw : cap ≤ l.wrPtr) : lineFeedByte cap b l = lineOverflow l := by
  rw [lineFeedByte, if_neg (ne_false_of_eq_true ha), if_neg hb, if_neg (Nat.not_lt.2 hw)]

/-- A FEED replaces the Line Assembler by what the byte's path makes of it (R100). -/
theorem exec_feed_of_path {s : State} {b : Byte} {l : LineAsm} (h : lineFeedByte s.cfg.lineCap b s.la = l) :
    exec (.feed b) s = .next (s.setLa l) := h ▸ exec_feed b s

/-- A FEED changes no cell of `LB` but the one at `wr_ptr` (R23). -/
theorem feed_lineByte_other (b : Byte) {s : State} {i : Nat} (h : i ≠ s.la.wrPtr) :
    (s.setLa (lineFeedByte s.cfg.lineCap b s.la)).lineByte i = s.lineByte i := by
  simp only [State.lineByte, setLa_la, setLa_cfg, lineFeedByte_read_other _ b s.la i h]

/-- Settles O3: FEED's next state differs in the Line Assembler alone, and there each path keeps the other cells. -/
theorem feedWritesOnlyLineAssembler : Obligations.FeedWritesOnlyLineAssembler := fun s b =>
  ⟨_, exec_feed b s, rfl, rfl, rfl, rfl, fun _ hi => feed_lineByte_other b hi, fun _ => rfl⟩

/-- Settles O4: the byte's path is LA_START, which the row runs too. -/
theorem startMarkerStartsLine : Obligations.StartMarkerStartsLine := fun s ha =>
  ⟨exec_feed_of_path (lineFeedByte_start s.cfg.lineCap ha), rfl⟩

/-- Settles O5: the byte's path is LA_DISCARD. -/
theorem noiseIsDiscarded : Obligations.NoiseIsDiscarded := fun s _ ha hb =>
  ⟨exec_feed_of_path (lineFeedByte_discard s.cfg.lineCap ha hb), rfl⟩

/-- Settles O6: the terminator's path is LA_TERM, which asks nothing of `wr_ptr`. -/
theorem terminatorCompletesLine : Obligations.TerminatorCompletesLine := fun s ha =>
  ⟨exec_feed_of_path (lineFeedByte_term s.cfg.lineCap ha), rfl⟩

/-- Settles O7: FEED takes the path LA_STORE, whose write reads back at `wr_ptr` alone. -/
theorem characterIsStored : Obligations.CharacterIsStored := fun _ b ha hb hw =>
  ⟨_, exec_feed_of_path (lineFeedByte_store ha hb hw), exec_laStore_of_lt b hw,
   (lineStore_lineByte b hw _).trans (if_pos rfl), fun i hi => (lineStore_lineByte b hw i).trans (if_neg hi),
   rfl, rfl, rfl, rfl, rfl, rfl, rfl, rfl⟩

/-- Settles O8: with no cell left the byte's path is LA_OVERFLOW. -/
theorem fullBufferOverflows : Obligations.FullBufferOverflows := fun _ _ ha hb hw =>
  ⟨exec_feed_of_path (lineFeedByte_overflow ha hb hw.ge), rfl⟩

/-! ### Bytes fed one per cycle -/

/-- The Line Assembler after the bytes `bs` (R100). -/
def feedBytes (cap : Nat) (bs : List Byte) (l : LineAsm) : LineAsm := bs.foldl (fun l b => lineFeedByte cap b l) l

@[simp] theorem feedBytes_nil (cap : Nat) (l : LineAsm) : feedBytes cap [] l = l := rfl

@[simp] theorem feedBytes_cons (cap : Nat) (b : Byte) (bs : List Byte) (l : LineAsm) :
    feedBytes cap (b :: bs) l = feedBytes cap bs (lineFeedByte cap b l) := rfl

theorem feedBytes_append (cap : Nat) (bs cs : List Byte) (l : LineAsm) :
    feedBytes cap (bs ++ cs) l = feedBytes cap cs (feedBytes cap bs l) := List.foldl_append

/-- The cycle of a FEED word is the cycle of that FEED (R71). -/
theorem cycle_feedWord (b : Byte) (s : State) :
    cycle { rst := false, cmd := feedWord b } s = commandCycle (.feed b) s :=
  congrArg (commandCycle · s) (decodeCommand_op1 b)

/-- From the invariant, the cycle of a FEED answers, and the Line Assembler takes the byte's path, also beside a decoder
step (R56). -/
theorem Inv.cycle_feedWord_la {s : State} (h : Inv s) (b : Byte) :
    ∃ t, cycle { rst := false, cmd := feedWord b } s = .next t ∧ t.la = lineFeedByte s.cfg.lineCap b s.la := by
  rw [cycle_feedWord]
  by_cases hb : s.dec.status = .busy
  · obtain ⟨d, hd⟩ := h.decoderStep_answers
    exact ⟨_, commandCycle_busy_next hb nofun hd (exec_feed b s), rfl⟩
  · exact ⟨_, (commandCycle_not_busy hb).trans (exec_feed b s), rfl⟩

/-- From the invariant, bytes fed one per cycle fold the Line Assembler, whether a pass runs or not (R56, R100). -/
theorem Inv.runWords_feeds : ∀ (bs : List Byte) {s : State}, Inv s →
    ∃ t, runWords (bs.map feedWord) s = .next t ∧ Inv t ∧ t.cfg = s.cfg ∧ t.la = feedBytes s.cfg.lineCap bs s.la
  | [], s, h => ⟨s, rfl, h, rfl, rfl⟩
  | b :: bs, s, h => by
    obtain ⟨u, hu, hla⟩ := h.cycle_feedWord_la b
    obtain ⟨t, ht, hinv, hcfg, htla⟩ := (h.after_cycle hu).runWords_feeds bs
    rw [cycle_cfg hu] at hcfg htla
    exact ⟨t, (runWords_cons hu).trans ht, hinv, hcfg, by rw [htla, hla, feedBytes_cons]⟩

/-- With no pass running, bytes fed one per cycle change the Line Assembler alone. -/
theorem runWords_feeds_of_not_busy : ∀ (bs : List Byte) {s : State}, s.dec.status ≠ .busy →
    runWords (bs.map feedWord) s = .next (s.setLa (feedBytes s.cfg.lineCap bs s.la))
  | [], _, _ => rfl
  | b :: bs, s, hb => by
    have hc := (cycle_feedWord b s).trans ((commandCycle_not_busy hb).trans (exec_feed b s))
    exact (runWords_cons hc).trans (runWords_feeds_of_not_busy bs hb)

/-! ### Leading noise (R106) -/

/-- Bytes without a start marker leave of an inactive Line Assembler what one discarded byte leaves (R105). -/
theorem feedBytes_noise (cap : Nat) : ∀ {bs : List Byte} {l : LineAsm}, l.active = false → bs ≠ [] → startChar ∉ bs →
    feedBytes cap bs l = lineDiscard l
  | [], _, _, hne, _ => absurd rfl hne
  | b :: bs, l, ha, _, hno => by
    obtain ⟨hb, hbs⟩ := List.ne_and_not_mem_of_not_mem_cons hno
    rw [feedBytes_cons, lineFeedByte_discard cap ha hb.symm]
    by_cases hnil : bs = []
    · rw [hnil, feedBytes_nil]
    · exact feedBytes_noise cap (l := lineDiscard l) ha hnil hbs

/-- Settles O51: the noise folds to one LA_DISCARD. -/
theorem leadingNoiseIsIgnored : Obligations.LeadingNoiseIsIgnored := fun s bs ha hne hno => by
  have hla := feedBytes_noise s.cfg.lineCap ha hne hno
  refine ⟨fun hb => ?_, fun h => ?_⟩
  · rw [runWords_feeds_of_not_busy bs hb, hla]
    rfl
  · obtain ⟨t, ht, _, _, htla⟩ := h.runWords_feeds bs
    exact ⟨t, ht, htla.trans hla⟩

/-! ### The characters of a line (R108, R109) -/

/-- The Line Assembler has received the start marker and the characters `cs` of a line, and no more (R22, R23). -/
structure Receiving (cs : List Byte) (l : LineAsm) : Prop where
  active : l.active = true
  busy : l.feedStatus = .busy
  wrPtr : l.wrPtr = cs.length
  stored : ∀ i, i < cs.length → l.lb.read lineUnlisted i = cs[i]?

/-- A start marker begins a line with no character yet (R101). -/
theorem receiving_lineStart (l : LineAsm) : Receiving [] (lineStart l) where
  active := rfl
  busy := rfl
  wrPtr := rfl
  stored _ hi := absurd hi (Nat.not_lt_zero _)

/-- A stored character is the next one of the line (R103). -/
theorem Receiving.after_store {cs : List Byte} {l : LineAsm} (h : Receiving cs l) (b : Byte) :
    Receiving (cs ++ [b]) (lineStore b l) where
  active := h.active
  busy := rfl
  wrPtr := (congrArg (· + 1) h.wrPtr).trans (List.length_append (bs := [b])).symm
  stored i hi := by
    have hread : (lineStore b l).lb.read lineUnlisted i = _ := read_write lineUnlisted l.lb l.wrPtr i b
    rw [hread, h.wrPtr]
    split
    · next heq => rw [heq, List.getElem?_concat_length]
    · next hne =>
      have hlt : i < cs.length := by simp only [List.length_append, List.length_singleton] at hi; omega
      rw [h.stored i hlt, List.getElem?_append_left hlt]

/-- Characters for which the buffer has room are received in order (R103). -/
theorem Receiving.after_feeds {cap : Nat} : ∀ {ds cs : List Byte} {l : LineAsm}, Receiving cs l → termChar ∉ ds →
    cs.length + ds.length ≤ cap → Receiving (cs ++ ds) (feedBytes cap ds l)
  | [], cs, _, h, _, _ => (List.append_nil cs).symm ▸ h
  | d :: ds, cs, l, h, hno, hlen => by
    obtain ⟨hd, hds⟩ := List.ne_and_not_mem_of_not_mem_cons hno
    rw [List.length_cons] at hlen
    have hroom : l.wrPtr < cap := by have := h.wrPtr; omega
    rw [feedBytes_cons, lineFeedByte_store h.active hd.symm hroom, List.append_cons]
    exact (h.after_store d).after_feeds hds (by simp only [List.length_append, List.length_singleton]; omega)

/-- A start marker and characters that fit, fed while inactive, are the start of a line (R101, R103). -/
theorem receiving_feedBytes {cap : Nat} {cs : List Byte} {l : LineAsm} (ha : l.active = false) (hno : termChar ∉ cs)
    (hlen : cs.length ≤ cap) : Receiving cs (feedBytes cap (startChar :: cs) l) := by
  rw [feedBytes_cons, lineFeedByte_start cap ha]
  exact (receiving_lineStart l).after_feeds hno (by simpa using hlen)

/-- A cell the buffer has is read from `LB` itself. -/
theorem lineByte_of_lt {s : State} {i : Nat} (h : i < s.cfg.lineCap) : s.lineByte i = s.la.lb.read lineUnlisted i :=
  if_pos h

/-- FEEDLINE is the start marker, the characters and the terminator, fed one per cycle (R85). -/
theorem runLine_feedline (cs : List Byte) (s : State) :
    runLine (.feedline cs) s = runWords ((startChar :: cs ++ [termChar]).map feedWord) s := by
  rw [List.map_append]
  rfl

/-- Settles O52: before the terminator the characters fed so far are being received, so the status is still BUSY; the
terminator completes what has been received. -/
theorem lineCompletesExactlyOnce : Obligations.LineCompletesExactlyOnce := fun s cs h ha hlen hno => by
  refine ⟨?_, fun k _ => ?_⟩
  · have hr := receiving_feedBytes ha hno hlen
    obtain ⟨t, ht, _, hcfg, hla⟩ := h.runWords_feeds (startChar :: cs ++ [termChar])
    rw [feedBytes_append, feedBytes_cons, feedBytes_nil, lineFeedByte_term _ hr.active] at hla
    refine ⟨t, (runLine_feedline cs s).trans ht, by rw [hla]; rfl, by rw [hla]; rfl, ?_, fun i hi => ?_⟩
    · rw [hla]
      exact hr.wrPtr
    · rw [lineByte_of_lt (hcfg ▸ hi.trans_le hlen), hla]
      exact hr.stored i hi
  · obtain ⟨u, hu, _, _, hla⟩ := h.runWords_feeds (startChar :: cs.take k)
    have hr := receiving_feedBytes (cap := s.cfg.lineCap) ha (fun hm => hno (List.mem_of_mem_take hm))
      ((List.length_take_le' k cs).trans hlen)
    exact ⟨u, hu, (congrArg LineAsm.feedStatus hla).trans hr.busy⟩

/-- What is left of an overflowed line completes nothing (R111). -/
theorem feedBytes_after_overflow (cap : Nat) {rest : List Byte} (l : LineAsm) (hno : startChar ∉ rest) :
    (feedBytes cap rest (lineOverflow l)).lineLen = 0 ∧
      (feedBytes cap rest (lineOverflow l)).feedStatus ≠ .lineComplete := by
  by_cases hnil : rest = []
  · rw [hnil, feedBytes_nil]
    exact ⟨rfl, nofun⟩
  · rw [feedBytes_noise cap (l := lineOverflow l) rfl hnil hno]
    exact ⟨rfl, nofun⟩

/-- Settles O53: LINE_CAP characters are received, with `wr_ptr` at LINE_CAP; the next one overflows, and what is left is
noise. -/
theorem overlongLineOverflows : Obligations.OverlongLineOverflows := fun s cs rest b h ha hlen hno hb hrest => by
  have hr := receiving_feedBytes ha hno hlen.le
  obtain ⟨t, ht, htinv, htcfg, htla⟩ := h.runWords_feeds (startChar :: cs)
  obtain ⟨u, hu, huinv, _, hula⟩ := htinv.runWords_feeds [b]
  obtain ⟨v, hv, _, _, hvla⟩ := huinv.runWords_feeds rest
  rw [← htla] at hr
  have hfull : t.la.wrPtr = s.cfg.lineCap := hr.wrPtr.trans hlen
  rw [feedBytes_cons, feedBytes_nil, lineFeedByte_overflow hr.active hb (htcfg ▸ hfull.ge)] at hula
  obtain ⟨hlen0, hstatus⟩ := feedBytes_after_overflow u.cfg.lineCap t.la hrest
  rw [← hula, ← hvla] at hlen0 hstatus
  refine ⟨t, u, v, ht, hr.active, hfull, hr.busy, fun i hi => ?_, htcfg ▸ htinv.line.lb_wf, hu, hula, hv, hlen0, hstatus⟩
  rw [lineByte_of_lt (htcfg ▸ hlen ▸ hi)]
  exact hr.stored i hi

end Sys2Proof.Machine

/-! The hex and checksum family (O25 to O30). Each function of 41_hex_and_checksum.md gets the equation or the `↔` that says
what it computes: `hexval` by the code of its character, `pairs` by its digits, `be` and `sum8` by their last byte, and
`neg8` as negation, so that the checksum's statements are arithmetic in the ring of 8-bit words. -/

namespace Sys2Proof.Machine

/-! ### Hex digits (R120) -/

/-- A difference that does not wrap, cut to `v` bits, as a number. -/
theorem setWidth_sub_ofNat {v w k : Nat} {c : BitVec w} (h : k ≤ c.toNat) :
    (c - BitVec.ofNat w k).setWidth v = BitVec.ofNat v (c.toNat - k) := by
  have hk : (BitVec.ofNat w k).toNat = k := Nat.mod_eq_of_lt (h.trans_lt c.isLt)
  rw [← BitVec.ofNat_toNat, BitVec.toNat_sub_of_le (BitVec.le_def.2 (hk.trans_le h)), hk]

/-- The table of `hexval` by the code of the character. -/
theorem hexval_eq_of_toNat (c : Byte) : hexval c =
    if 0x30 ≤ c.toNat ∧ c.toNat ≤ 0x39 then some (BitVec.ofNat 4 (c.toNat - 0x30))
    else if 0x41 ≤ c.toNat ∧ c.toNat ≤ 0x46 then some (BitVec.ofNat 4 (c.toNat - 0x37))
    else if 0x61 ≤ c.toNat ∧ c.toNat ≤ 0x66 then some (BitVec.ofNat 4 (c.toNat - 0x57))
    else none := by
  unfold hexval
  simp only [BitVec.le_def, BitVec.toNat_ofNat, Nat.reducePow, Nat.reduceMod]
  split_ifs with hdigit hupper hlower
  · rw [setWidth_sub_ofNat hdigit.1]
  · rw [setWidth_sub_ofNat (by omega)]
  · rw [setWidth_sub_ofNat (by omega)]
  · rfl

/-- Settles O25: the three ranges are disjoint, so each clause selects its own branch of the table. -/
theorem hexvalTable : Obligations.HexvalTable := fun c => by
  rw [hexval_eq_of_toNat]
  refine ⟨fun h => if_pos h, fun h => ?_, fun h => ?_, fun ⟨hdigit, hupper, hlower⟩ => ?_⟩
  · rw [if_neg (by omega), if_pos h]
  · rw [if_neg (by omega), if_neg (by omega), if_pos h]
  · rw [if_neg hdigit, if_neg hupper, if_neg hlower]

/-! ### Pairs (R121, R122) -/

/-- Two digits make a byte, the first one its high nibble. -/
theorem pairval_of_digits {a b : Byte} {h l : BitVec 4} (ha : hexval a = some h) (hb : hexval b = some l) :
    pairval a b = some (h ++ l) := by
  rw [pairval, ha, hb, BitVec.append_def, BitVec.shiftLeftZeroExtend_eq, BitVec.setWidth'_eq]

theorem pairval_eq_none_iff {a b : Byte} : pairval a b = none ↔ hexval a = none ∨ hexval b = none := by
  unfold pairval
  cases hexval a <;> cases hexval b <;> simp

theorem pairs_cons_cons_eq_none_iff {a b : Byte} {r : List Byte} :
    pairs (a :: b :: r) = none ↔ pairval a b = none ∨ pairs r = none := by
  rw [pairs_cons_cons]
  cases pairval a b <;> cases pairs r <;> simp

theorem pairs_cons_cons_eq_some_iff {a b : Byte} {r bs : List Byte} :
    pairs (a :: b :: r) = some bs ↔ ∃ v vs, pairval a b = some v ∧ pairs r = some vs ∧ v :: vs = bs := by
  rw [pairs_cons_cons]
  cases pairval a b <;> cases pairs r <;> simp

/-- A list of characters is INVALID for one that is no digit, or for one left over. -/
theorem pairs_eq_none_iff : ∀ {cs : List Byte},
    pairs cs = none ↔ cs.length % 2 = 1 ∨ ∃ c ∈ cs, hexval c = none
  | [] => by simp
  | [_] => by simp [pairs]
  | a :: b :: r => by
    rw [pairs_cons_cons_eq_none_iff, pairval_eq_none_iff, pairs_eq_none_iff (cs := r)]
    simp only [List.length_cons, List.exists_mem_cons_iff, Nat.add_assoc, Nat.reduceAdd, Nat.add_mod_right]
    tauto

/-- The byte at `k` is the pair of characters at `2 * k`. -/
theorem getElem?_of_pairs : ∀ {cs bs : List Byte} {k : Nat}, pairs cs = some bs → k < bs.length →
    ∃ a b, cs[2 * k]? = some a ∧ cs[2 * k + 1]? = some b ∧ pairval a b = bs[k]?
  | [], bs, k, hp, hk => by
    cases hp
    exact absurd hk (Nat.not_lt_zero k)
  | [_], bs, k, hp, hk => nomatch hp
  | a :: b :: r, bs, k, hp, hk => by
    obtain ⟨v, vs, hv, hvs, rfl⟩ := pairs_cons_cons_eq_some_iff.1 hp
    cases k with
    | zero => exact ⟨a, b, rfl, rfl, hv⟩
    | succ k => exact getElem?_of_pairs (cs := r) hvs (Nat.lt_of_succ_lt_succ hk)

/-- Settles O26: with no character left over, `pairs` is INVALID exactly where a digit is. -/
theorem pairsConvertHighNibbleFirst : Obligations.PairsConvertHighNibbleFirst := by
  refine ⟨fun _ _ _ _ => pairval_of_digits, fun _ _ => pairval_eq_none_iff.2, fun cs heven =>
    ⟨fun h => pairs_eq_none_iff.2 (.inr h), fun hdigits => ?_⟩⟩
  have hvalid : pairs cs ≠ none := fun hnone => by
    obtain hodd | ⟨c, hc, hbad⟩ := pairs_eq_none_iff.1 hnone
    · omega
    · exact hdigits c hc hbad
  obtain ⟨bs, hbs⟩ := Option.ne_none_iff_exists'.1 hvalid
  exact ⟨bs, hbs, length_of_pairs hbs, fun k => getElem?_of_pairs hbs⟩

/-! ### Byte order (R123) -/

/-- One more byte shifts the value of the bytes before it up by 8 bits. -/
theorem be_append_eq_or (bs : List Byte) (b : Byte) : be (bs ++ [b]) = (be bs <<< 8) ||| b.toNat := by
  rw [be_append, ← Nat.shiftLeft_add_eq_or_of_lt b.isLt, Nat.shiftLeft_eq]

theorem be_lt_two_pow (bs : List Byte) : be bs < 2 ^ (8 * bs.length) := by
  induction bs using List.reverseRecOn with
  | nil => simp
  | append_singleton bs b ih =>
    have hb : b.toNat < 256 := b.isLt
    have hpow : 2 ^ (8 * (bs ++ [b]).length) = 2 ^ (8 * bs.length) * 256 := by
      rw [List.length_append, List.length_singleton, Nat.mul_add, Nat.pow_add]
    rw [be_append, hpow]
    omega

/-- Settles O27: the shift form of `be_append`, and the width by induction on the last byte. -/
theorem bytesAreMostSignificantFirst : Obligations.BytesAreMostSignificantFirst :=
  ⟨be_single, be_append_eq_or, be_lt_two_pow⟩

/-! ### Checksum arithmetic (R124, R125, R127) -/

theorem toNat_sum8 (bs : List Byte) : (sum8 bs).toNat = (bs.map BitVec.toNat).sum % 256 := by
  induction bs using List.reverseRecOn with
  | nil => rfl
  | append_singleton bs b ih => simp [sum8_append, BitVec.toNat_add, ih]

/-- `neg8` is the negation of 8-bit words. -/
theorem neg8_eq_neg (x : Byte) : neg8 x = -x := (BitVec.neg_eq_not_add x).symm

/-- Settles O28: `sum8` reduces at each byte, and `neg8` is the negation of the word. -/
theorem checksumArithmetic : Obligations.ChecksumArithmetic :=
  ⟨toNat_sum8, fun x => by rw [neg8_eq_neg, BitVec.toNat_neg]⟩

theorem checksumMatches_iff {sum cc : Byte} : checksumMatches sum cc = true ↔ cc = neg8 sum := beq_iff_eq

/-- The checksum byte is `neg8` of the sum exactly when it completes the sum to 0. -/
theorem eq_neg8_iff_add_eq_zero {sum cc : Byte} : cc = neg8 sum ↔ sum + cc = 0#8 := by
  rw [neg8_eq_neg, eq_neg_iff_add_eq_zero, BitVec.add_comm]
  rfl

/-- Settles O29: the checksum byte is the last term of the sum. -/
theorem validMeansBytesSumToZero : Obligations.ValidMeansBytesSumToZero := fun bs cc =>
  ⟨by rw [sum8_append, eq_neg8_iff_add_eq_zero], checksumMatches_iff⟩

/-! ### The checksum step (R128, R162) -/

/-- Flipping a bit that a word has changes the word. -/
theorem xor_one_shiftLeft_ne_self {w k : Nat} (x : BitVec w) (h : k < w) : x ^^^ (1#w <<< k) ≠ x := by
  rw [Ne, xor_left_eq_self_iff, ← BitVec.twoPow_eq]
  intro hzero
  have hbit : (BitVec.twoPow w k).getLsbD k = true := by simp [h]
  simp [hzero] at hbit

/-- GET_CHECKSUM with its byte read: the comparison decides the validity flag and the terminal status (R162). -/
theorem exec_decGetChecksum_of_fieldBytes {s : State} {cc : Byte} (h : FieldBytes 1 s [cc]) :
    exec .decGetChecksum s = .next (finish (if checksumMatches s.rcd.checksum cc then .successful else .checksumError)
      ((advance 2 s).setRcd { s.rcd with valid := checksumMatches s.rcd.checksum cc })) := by
  obtain ⟨cs, ⟨hb, hlen, hcs⟩, hp⟩ := h
  simp only [exec, execDecGetChecksum, withField_chars hb hlen hcs, hp, be_single, BitVec.ofNat_toNat,
    BitVec.setWidth_eq]

/-- GET_CHECKSUM reports a byte that does not match the running sum. -/
theorem exec_decGetChecksum_mismatch {s : State} {cc : Byte} (h : FieldBytes 1 s [cc])
    (hne : cc ≠ neg8 s.rcd.checksum) :
    ∃ t, exec .decGetChecksum s = .next t ∧ t.dec.status = .checksumError ∧ t.rcd.valid = false := by
  have hmatch : checksumMatches s.rcd.checksum cc = false := Bool.eq_false_iff.2 (mt checksumMatches_iff.1 hne)
  refine ⟨_, exec_decGetChecksum_of_fieldBytes h, ?_, hmatch⟩
  rw [finish_status, hmatch]
  rfl

/-- Settles O30: a flipped bit makes the byte differ from the one that matches. -/
theorem singleBitCorruptionIsDetected : Obligations.SingleBitCorruptionIsDetected :=
  have hflip : ∀ (x cc : Byte) (k : Nat), k < 8 → cc = neg8 x → cc ^^^ (1#8 <<< k) ≠ neg8 x :=
    fun _ cc _ hk hcc => hcc ▸ xor_one_shiftLeft_ne_self cc hk
  ⟨hflip, fun _ _ _ hk hcc hf => exec_decGetChecksum_mismatch hf (hflip _ _ _ hk hcc)⟩

end Sys2Proof.Machine

/-! The record decoder's own operations (O12 to O24). A field step is a `withField`: `failsAsFieldStep_of_withField` says once
how it fails, `withField_of_fieldBytes` that with its bytes read it does its own writes. -/

namespace Sys2Proof.Machine

/-! ### How a field step fails and succeeds -/

/-- An instruction that reads one field fails as a field step (R142, R143). -/
theorem failsAsFieldStep_of_withField {n : Nat} {i : Instr} {s : State}
    (h : ∃ body, exec i s = withField n s body) : FailsAsFieldStep n i s := by
  obtain ⟨body, hi⟩ := h
  refine ⟨fun hshort => hi.trans (withField_short hshort), fun cs ⟨hb, hlen, hcs⟩ hbad => ?_⟩
  rw [hi, withField_chars hb hlen hcs, pairs_eq_none_iff.2 (.inr hbad)]
  rfl

/-- Settles O21: every decoder state with a field width reads one field of that width. -/
theorem fieldStepsCheckBoundThenDigits : Obligations.FieldStepsCheckBoundThenDigits := fun _ _ _ h =>
  failsAsFieldStep_of_withField (exec_eq_withField_of_fieldWidth h)

/-- A field step with its bytes read does its own writes. -/
theorem withField_of_fieldBytes {n : Nat} {s : State} {bs : List Byte} (h : FieldBytes n s bs)
    (k : List Byte → Host.Outcome State Fault Refusal) : withField n s k = k bs := by
  obtain ⟨cs, ⟨hb, hlen, hcs⟩, hp⟩ := h
  rw [withField_chars hb hlen hcs, hp]

/-- One byte as a field's value is that byte. -/
theorem ofNat_be_single (b : Byte) : BitVec.ofNat 8 (be [b]) = b := by
  rw [be_single, BitVec.ofNat_toNat, BitVec.setWidth_eq]

/-- Two bytes as a field's value: the first one is the high byte (R147). -/
theorem ofNat_be_pair (hi lo : Byte) : BitVec.ofNat 16 (be [hi, lo]) = hi ++ lo := by
  apply BitVec.eq_of_toNat_eq
  have hbe : be [hi, lo] = (hi ++ lo).toNat := by
    rw [BitVec.toNat_append, ← be_single hi, ← be_append_eq_or [hi] lo, List.singleton_append]
  rw [hbe, BitVec.ofNat_toNat, BitVec.setWidth_eq]

/-- The bytes of two fields add up (R126). -/
theorem sum8_append_list (as bs : List Byte) : sum8 (as ++ bs) = sum8 as + sum8 bs := by
  induction bs using List.reverseRecOn with
  | nil => rw [List.append_nil, sum8_nil, BitVec.add_zero]
  | append_singleton bs b ih => rw [← List.append_assoc, sum8_append, ih, sum8_append, BitVec.add_assoc]

/-! ### The operations without a branch -/

/-- Settles O12: the operation has no condition, and its writes are those of R145. -/
theorem passStartClearsRecord : Obligations.PassStartClearsRecord := ⟨rfl, fun _ => rfl⟩

/-- Settles O20: neither operation has a condition. -/
theorem errorReportsAndDoneRests : Obligations.ErrorReportsAndDoneRests := ⟨rfl, rfl, fun _ => ⟨rfl, rfl⟩⟩

/-- Settles O13: GET_LENGTH is a field of one byte. -/
theorem getLengthStoresLength : Obligations.GetLengthStoresLength :=
  ⟨rfl, fun s => ⟨fieldStepsCheckBoundThenDigits s .getLength 1 rfl, fun b h => by
    refine (withField_of_fieldBytes h _).trans ?_
    simp only [ofNat_be_single, accumulate, sum8_single]
    rfl⟩⟩

/-- Settles O14: GET_ADDRESS is a field of two bytes. -/
theorem getAddressStoresAddress : Obligations.GetAddressStoresAddress :=
  ⟨rfl, fun s => ⟨fieldStepsCheckBoundThenDigits s .getAddress 2 rfl, fun hi lo h => by
    refine (withField_of_fieldBytes h _).trans ?_
    have hsum : sum8 [hi, lo] = hi + lo := (sum8_append [hi] lo).trans (congrArg (· + lo) (sum8_single hi))
    simp only [ofNat_be_pair, accumulate, hsum, ← BitVec.add_assoc]
    rfl⟩⟩

/-- Settles O19: GET_CHECKSUM is a field of one byte, and its comparison selects the clause. -/
theorem getChecksumDecidesRecord : Obligations.GetChecksumDecidesRecord :=
  ⟨rfl, fun s => ⟨fieldStepsCheckBoundThenDigits s .getChecksum 1 rfl, fun cc h => by
    rw [exec_decGetChecksum_of_fieldBytes h]
    refine ⟨fun heq => ?_, fun hne => ?_⟩
    · rw [checksumMatches_iff.2 heq]
      rfl
    · rw [Bool.eq_false_iff.2 (mt checksumMatches_iff.1 hne)]
      rfl⟩⟩

/-! ### The branch of GET_TYPE (R149 to R152) -/

/-- Where GET_TYPE goes with the type `t`, after the length `len`. -/
def typeTarget (cfg : Config) (len t : Byte) : DecState :=
  if t = 0x00#8 then
    (if cfg.maxDataBytes < len.toNat then .error
     else if len = 0#8 then .getChecksum else .getData)
  else if t = 0x01#8 then .getChecksum
  else if t = 0x02#8 ∨ t = 0x03#8 ∨ t = 0x04#8 ∨ t = 0x05#8 then .getExt
  else .error

/-- The Data branch is a `goto` (R149). -/
theorem branchData_eq_goto (s : State) : branchData s = goto (typeTarget s.cfg s.rcd.length 0x00#8) s := by
  rw [typeTarget, if_pos rfl, branchData]
  simp only [gt_iff_lt]
  split_ifs <;> rfl

theorem branchOnType_eq_goto (t : Byte) (s : State) :
    branchOnType t s = goto (typeTarget s.cfg s.rcd.length t) s := by
  unfold branchOnType
  split_ifs with h0 h1 hx
  · rw [h0, branchData_eq_goto]
  · rw [h1]; rfl
  · rw [typeTarget, if_neg h0, if_neg h1, if_pos hx]; rfl
  · rw [typeTarget, if_neg h0, if_neg h1, if_neg hx]; rfl

/-- Settles O15: GET_TYPE is its writes, then the branch. -/
theorem getTypeStoresTypeAndBranches : Obligations.GetTypeStoresTypeAndBranches :=
  ⟨rfl, fun s => ⟨fieldStepsCheckBoundThenDigits s .getType 1 rfl, fun t h => by
    rw [exec_decGetType_of_fieldBytes h, branchOnType_eq_goto]
    rfl⟩⟩

/-- Settles O23: the Data row goes where its type and the length say; the other rows have one branch each. -/
theorem recordTypesBranch : Obligations.RecordTypesBranch := fun s tt => by
  refine ⟨congrArg Host.Outcome.next (branchData_eq_goto s), rfl, fun i hi => ?_⟩
  simp only [List.mem_cons, List.not_mem_nil, or_false] at hi
  obtain rfl | rfl | rfl | rfl | rfl | rfl := hi <;> rfl

/-! ### GET_DATA (R155) -/

/-- GET_DATA while the payload store has room. -/
theorem exec_decGetData_eq {s : State} (h : s.dec.didx < s.cfg.maxDataBytes) :
    exec .decGetData s = withField 1 s fun bs =>
      .next (((advance 2 (accumulate bs
        (s.setRcd { s.rcd with pay := s.rcd.pay.write payUnlisted s.dec.didx (BitVec.ofNat 8 (be bs)) })))).setDec
          { s.dec with
            rdPtr := s.dec.rdPtr + 2
            didx := s.dec.didx + 1
            state := if s.dec.didx + 1 = s.rcd.length.toNat then .getChecksum else .getData }) := by
  simp only [exec, execDecGetData, if_pos h]
  rfl

/-- GET_DATA with its byte read: the byte goes to `didx`, the last one of the payload leads to GET_CHECKSUM. -/
theorem exec_decGetData_of_fieldBytes {s : State} {b : Byte} (h : FieldBytes 1 s [b])
    (hroom : s.dec.didx < s.cfg.maxDataBytes) : exec .decGetData s = .next { s with
      rcd := { s.rcd with
        checksum := s.rcd.checksum + b
        pay := s.rcd.pay.write payUnlisted s.dec.didx b }
      dec := { s.dec with
        rdPtr := s.dec.rdPtr + 2
        didx := s.dec.didx + 1
        state := if s.dec.didx + 1 = s.rcd.length.toNat then .getChecksum else .getData } } := by
  rw [exec_decGetData_eq hroom, withField_of_fieldBytes h, ofNat_be_single, accumulate, sum8_single]
  rfl

/-- Settles O17: one write of `PAY` at `didx`, read back by `payWrite_payByte`. -/
theorem getDataStoresOneByte : Obligations.GetDataStoresOneByte :=
  ⟨rfl, fun s => ⟨fieldStepsCheckBoundThenDigits s .getData 1 rfl, fun b h hroom =>
    have hread := payWrite_payByte s.dec.didx b hroom
      { s.rcd with checksum := s.rcd.checksum + b, pay := s.rcd.pay.write payUnlisted s.dec.didx b } rfl
    ⟨_, exec_decGetData_of_fieldBytes h hroom, (hread _).trans (if_pos rfl), fun i hi => (hread i).trans (if_neg hi),
      rfl, rfl, rfl, rfl, rfl⟩⟩⟩

/-! ### The field of an address record (R157 to R161) -/

/-- The two destinations of an address record's field, in one update. -/
theorem writeExt_eq_setRcd {t : Byte} (ht : t = 0x02#8 ∨ t = 0x03#8 ∨ t = 0x04#8 ∨ t = 0x05#8) (v : BitVec 32) (s : State) :
    writeExt t v s = s.setRcd { s.rcd with
      offset := if t = 0x02#8 ∨ t = 0x04#8 then v else s.rcd.offset
      start := if t = 0x03#8 ∨ t = 0x05#8 then v else s.rcd.start } := by
  obtain rfl | rfl | rfl | rfl := ht <;> rfl

/-- The types that have a field width are those of the address records (R8). -/
theorem addressType_of_extBytes {cfg : Config} {t : Byte} {n : Nat} (h : cfg.extBytes t = some n) :
    t = 0x02#8 ∨ t = 0x03#8 ∨ t = 0x04#8 ∨ t = 0x05#8 := by
  obtain ⟨ht, _⟩ | ⟨_, _, _, _, hnone⟩ := extBytes_cases cfg t
  · exact ht
  · cases h.symm.trans hnone

/-- The field of an address record with its bytes read. -/
theorem extField_of_fieldBytes {s : State} {t : Byte} {n : Nat} {bs : List Byte} (hn : s.cfg.extBytes t = some n)
    (h : FieldBytes n s bs) : extField t s = .next { s with
      rcd := { s.rcd with
        offset := if t = 0x02#8 ∨ t = 0x04#8 then BitVec.ofNat 32 (be bs) else s.rcd.offset
        start := if t = 0x03#8 ∨ t = 0x05#8 then BitVec.ofNat 32 (be bs) else s.rcd.start
        checksum := s.rcd.checksum + sum8 bs }
      dec := { s.dec with rdPtr := s.dec.rdPtr + 2 * n, state := .getChecksum } } := by
  rw [extField_eq_withField hn, withField_of_fieldBytes h, writeExt_eq_setRcd (addressType_of_extBytes hn)]
  rfl

/-- Settles O18: GET_EXT is the field of `rec_type`. -/
theorem getExtStoresAddressField : Obligations.GetExtStoresAddressField :=
  ⟨rfl, fun s n hn => ⟨fieldStepsCheckBoundThenDigits s .getExt n hn, fun _ h => extField_of_fieldBytes hn h⟩⟩

/-- Every row of an address record has a field width (R8). -/
theorem exists_extBytes_of_addressRow {cfg : Config} {i : Instr} {t : Byte}
    (h : (i, t) ∈ [(Instr.recExtSegmentAddress, 0x02#8), (.recStartSegmentAddress, 0x03#8),
      (.recExtLinearAddress, 0x04#8), (.recStartLinearAddress, 0x05#8)]) : ∃ n, cfg.extBytes t = some n := by
  simp only [List.mem_cons, Prod.mk.injEq, List.not_mem_nil, or_false] at h
  obtain ⟨_, rfl⟩ | ⟨_, rfl⟩ | ⟨_, rfl⟩ | ⟨_, rfl⟩ := h <;> exact ⟨_, rfl⟩

/-- Settles O24: the row is `addressRecord` of its type, which is the branch outside GET_EXT and the field in it. -/
theorem addressRecordRows : Obligations.AddressRecordRows := fun s i t h => by
  rw [exec_addressRow s h]
  refine ⟨fun hs => if_neg hs, fun hs => ?_⟩
  obtain ⟨n, hn⟩ := exists_extBytes_of_addressRow (cfg := s.cfg) h
  refine ⟨n, hn, failsAsFieldStep_of_withField (exec_addressRow s h ▸ addressRecord_eq_withField hs hn), fun bs hf => ?_⟩
  rw [addressRecord, if_pos hs, extField_of_fieldBytes hn hf]

/-! ### The Line Assembler's half of a cycle (R140, R202) -/

/-- What a cycle makes of the Line Assembler: the command and the Line Assembler decide it. -/
def lineCycle (x : CycleInput) (cap : Nat) (l : LineAsm) : LineAsm :=
  if x.rst then { LineAsm.reset with lb := l.lb }
  else
    match decodeCommand x.cmd with
    | .feed b => lineFeedByte cap b l
    | .init => { LineAsm.reset with lb := l.lb }
    | _ => l

/-- A command alone does to the Line Assembler what its cycle does. -/
theorem exec_decodeCommand_la_eq {w : CmdWord} {s c : State} (h : exec (decodeCommand w) s = .next c) :
    c.la = lineCycle { rst := false, cmd := w } s.cfg.lineCap s.la := by
  obtain ⟨hw, rfl⟩ | ⟨hw, rfl⟩ | ⟨hw, _, rfl⟩ | ⟨hw, _, rfl⟩ | ⟨hw, rfl⟩ := exec_decodeCommand_cases h <;>
    simp only [lineCycle, hw, Bool.false_eq_true, if_false, setLa_la, setDec_la]

theorem cycle_la_eq {x : CycleInput} {s t : State} (h : cycle x s = .next t) :
    t.la = lineCycle x s.cfg.lineCap s.la := by
  obtain ⟨rst, w⟩ := x
  obtain ⟨rfl, rfl⟩ | ⟨rfl, _, hc⟩ | ⟨rfl, _, _, d, c, _, hc, rfl⟩ := cycle_cases h
  · rfl
  · exact exec_decodeCommand_la_eq hc
  · exact (exec_decodeCommand_la_eq hc :)

/-- Settles O41: `cycle_la_eq` on each side, with the same inputs sampled. -/
theorem decoderNeverChangesLineAssembler : Obligations.DecoderNeverChangesLineAssembler :=
  fun s u s' u' hla hcfg hins hs hu => by
    have hin : nextInput s = nextInput u := by simp only [nextInput, hins]
    rw [cycle_la_eq (x := nextInput s) (s := sampled s) hs, cycle_la_eq (x := nextInput u) (s := sampled u) hu, hin]
    exact congrArg₂ (lineCycle (nextInput u)) (congrArg Config.lineCap hcfg) hla

end Sys2Proof.Machine

/-! A pass and its line (O54, O56). What a field step reads is a part of `lineText`, the cycles of a pass are its decoder
steps, `stepsLeft` bounds their number, and two passes over the same line go in lockstep (`SamePass`). -/

namespace Sys2Proof.Machine

/-! ### The field that a step reads, as a part of the line (R23, R142, R143) -/

theorem LineInv.lineText_eq_map {s : State} (hl : LineInv s.cfg s.la) :
    lineText s = (List.range s.la.lineLen).map fun i => (s.lineByte i).getD 0 := by
  rw [lineText, List.filterMap_eq_map_iff_forall_eq_some]
  intro i hi
  obtain ⟨b, hb⟩ := Option.isSome_iff_exists.1 (hl.lineByte_isSome (List.mem_range.1 hi))
  rw [hb, Option.getD_some]

/-- The text of a completed line has `line_len` characters (R24). -/
theorem LineInv.length_lineText {s : State} (hl : LineInv s.cfg s.la) : (lineText s).length = s.la.lineLen := by
  rw [hl.lineText_eq_map, List.length_map, List.length_range]

/-- The text of a completed line holds cell `i` at place `i` (R23). -/
theorem LineInv.getElem?_lineText {s : State} (hl : LineInv s.cfg s.la) {i : Nat} (hi : i < s.la.lineLen) :
    (lineText s)[i]? = s.lineByte i := by
  obtain ⟨b, hb⟩ := Option.isSome_iff_exists.1 (hl.lineByte_isSome hi)
  simp only [hl.lineText_eq_map, List.getElem?_map, List.getElem?_range hi, Option.map_some, hb, Option.getD_some]

/-- A field inside the line has the characters that the text has there. -/
theorem LineInv.fieldChars_lineText {s : State} (hl : LineInv s.cfg s.la) {n : Nat}
    (hb : s.dec.rdPtr + 2 * n ≤ s.la.lineLen) :
    FieldChars n s (((lineText s).drop s.dec.rdPtr).take (2 * n)) := by
  refine ⟨hb, ?_, fun j hj => ?_⟩
  · rw [List.length_take, List.length_drop, hl.length_lineText]
    omega
  · rw [List.getElem?_take_of_lt hj, List.getElem?_drop, hl.getElem?_lineText (by omega)]

/-- What `readfield(n)` gives with the cursor at `rd`, by the text of the line alone. -/
def fieldOfText (n rd : Nat) (text : List Byte) : FieldResult :=
  if text.length < rd + 2 * n then .short
  else ((pairs ((text.drop rd).take (2 * n))).map FieldResult.bytes).getD .badDigit

/-- `readfield(n)` looks at the text of the line, from the cursor on, and at nothing else. -/
theorem LineInv.readField_eq {s : State} (hl : LineInv s.cfg s.la) (n : Nat) :
    readField n s = fieldOfText n s.dec.rdPtr (lineText s) := by
  rw [fieldOfText, hl.length_lineText]
  by_cases hb : s.dec.rdPtr + 2 * n ≤ s.la.lineLen
  · obtain ⟨_, hlen, hcs⟩ := hl.fieldChars_lineText hb
    rw [readField, memRead_ok hlen hcs, if_neg (Nat.not_lt.2 hb), if_neg (Nat.not_lt.2 hb)]
    cases hp : pairs (((lineText s).drop s.dec.rdPtr).take (2 * n)) <;> simp only [hp] <;> rfl
  · rw [readField, if_pos (Nat.lt_of_not_le hb), if_pos (Nat.lt_of_not_le hb)]

/-! ### The cycles of a pass -/

/-- Nothing of the state `d` but the decoder and the record differs from `s`. -/
def DecoderFrame (s d : State) : Prop := d = (s.setDec d.dec).setRcd d.rcd

/-- A field step writes nothing else if its own writes do not. -/
theorem decoderFrame_of_withField {n : Nat} {s d : State} {k : List Byte → Host.Outcome State Fault Refusal}
    (hd : withField n s k = .next d) (hk : ∀ bs, k bs = .next d → DecoderFrame s d) : DecoderFrame s d := by
  obtain ⟨_, rfl⟩ | ⟨_, rfl⟩ | ⟨bs, _, _, _, hbs⟩ := withField_next hd
  · rfl
  · rfl
  · exact hk bs hbs

/-- A decoder step writes the decoder and the record alone (R140, R202). -/
theorem decoderStep_frame {k : DecState} {s d : State} (h : exec (decStateInstr k) s = .next d) : DecoderFrame s d := by
  cases k with
  | init => cases h; rfl
  | error => cases h; rfl
  | done => cases h; rfl
  | getLength => exact decoderFrame_of_withField h fun _ hk => by cases hk; rfl
  | getAddress => exact decoderFrame_of_withField h fun _ hk => by cases hk; rfl
  | getChecksum => exact decoderFrame_of_withField h fun _ hk => by cases hk; rfl
  | getType =>
    refine decoderFrame_of_withField h fun _ hk => ?_
    simp only [branchOnType_eq_goto] at hk
    cases hk
    rfl
  | getData =>
    refine decoderFrame_of_withField h fun _ hk => ?_
    simp only at hk
    split at hk
    · cases hk; rfl
    · cases hk
  | getExt =>
    obtain ⟨n, hn, _⟩ := extField_next h
    refine decoderFrame_of_withField ((extField_eq_withField hn).symm.trans h) fun bs hk => ?_
    rw [writeExt_eq_setRcd (addressType_of_extBytes hn)] at hk
    cases hk
    rfl

/-- The NOP cycle of a running pass is its decoder step (R184). -/
theorem cycle_nop_of_step {s d : State} (hb : s.dec.status = .busy)
    (hd : exec (decStateInstr s.dec.state) s = .next d) : cycle { rst := false, cmd := nopWord } s = .next d := by
  rw [decoderStep_frame hd]
  exact commandCycle_busy_next (i := .nop) hb nofun hd (exec_nop s)

/-- With no pass running a NOP cycle changes nothing (R214). -/
theorem cycle_nop_of_not_busy {s : State} (hb : s.dec.status ≠ .busy) :
    cycle { rst := false, cmd := nopWord } s = .next s :=
  (commandCycle_not_busy (i := .nop) hb).trans (exec_nop s)

/-- The state after DECODE, where no pass was running (R182). -/
def startPass (s : State) : State := s.setDec { s.dec with state := .init, status := .busy }

theorem cycle_decode {s : State} (hb : s.dec.status ≠ .busy) :
    cycle { rst := false, cmd := decodeWord } s = .next (startPass s) :=
  (commandCycle_not_busy (i := .decode) hb).trans (if_neg hb)

theorem Inv.start {s : State} (h : Inv s) : Inv (startPass s) := ⟨h.line, h.decoder.start⟩

theorem runTrace_singleton (l : TraceLine) (s : State) : runTrace [l] s = runLine l s := by
  rw [runTrace]
  cases runLine l s <;> rfl

/-- DECODE and one more line are that line from the start of a pass. -/
theorem runTrace_decode {s : State} (hb : s.dec.status ≠ .busy) (l : TraceLine) :
    runTrace [.decode, l] s = runLine l (startPass s) := by
  have hdecode : runLine .decode s = .next (startPass s) := runWords_cons (cycle_decode hb)
  rw [runTrace, hdecode]
  exact runTrace_singleton l _

/-! ### Every pass ends (R250, R251) -/

theorem runInputs_cons {x : CycleInput} {xs : List CycleInput} {s t : State} (h : cycle x s = .next t) :
    runInputs (x :: xs) s = runInputs xs t := by
  rw [runInputs, h]

/-- A run with as many cycles as the pass has steps left ends it, on any inputs. -/
theorem Inv.runInputs_ends : ∀ {xs : List CycleInput} {s : State}, Inv s →
    (s.dec.status = .busy → stepsLeft s.cfg s.dec s.rcd ≤ xs.length) →
    ∃ k t, k ≤ xs.length ∧ runInputs (xs.take k) s = .next t ∧ t.dec.status ≠ .busy
  | [], s, h, hn => ⟨0, s, Nat.le_refl 0, rfl, fun hb => absurd (h.stepsLeft_pos hb) (Nat.not_lt.2 (hn hb))⟩
  | x :: xs, s, h, hn => by
    by_cases hb : s.dec.status = .busy
    · obtain ⟨u, hu⟩ := h.cycle_answers x
      have hleft : u.dec.status = .busy → stepsLeft u.cfg u.dec u.rcd ≤ xs.length := fun hbu => by
        rw [cycle_cfg hu]
        have hfewer := (h.endedOrFewer_cycle hb hu).resolve_left (not_not_intro hbu)
        exact Nat.le_of_lt_succ (hfewer.trans_le (hn hb))
      obtain ⟨k, t, hk, hr, ht⟩ := (h.after_cycle hu).runInputs_ends hleft
      exact ⟨k + 1, t, Nat.succ_le_succ hk, (runInputs_cons hu).trans hr, ht⟩
    · exact ⟨0, s, Nat.zero_le _, rfl, hb⟩

/-- Settles O54: the steps left are at most the longest pass. -/
theorem everyPassEnds : Obligations.EveryPassEnds := fun _ _ h hlen _ =>
  h.runInputs_ends fun _ => hlen ▸ h.stepsLeft_le_longestPass

/-! ### Two passes over one line (R167) -/

/-- The same decoder and record registers before another line buffer, payload store and other inputs. -/
def State.elsewhere (s : State) (l : LineAsm) (p : Memory) (ins : List CycleInput) : State :=
  { s with la := l, rcd := { s.rcd with pay := p }, inputs := ins }

/-- Two states of a pass over the same line: they differ in nothing that the pass has written or reads. -/
inductive SamePass : State → State → Prop
  | mk (s : State) (l : LineAsm) (p : Memory) (ins : List CycleInput) (text : lineText s = lineText (s.elsewhere l p ins))
      (pay : ∀ i, i < s.dec.didx → s.payByte i = (s.elsewhere l p ins).payByte i) : SamePass s (s.elsewhere l p ins)

/-- A field step of two passes over the same line: both fail alike, or both do their writes with the same bytes. -/
theorem SamePass.of_withField {n : Nat} {s u d e : State} {f g : List Byte → State} (h : SamePass s u)
    (hs : LineInv s.cfg s.la) (hu : LineInv u.cfg u.la) (hd : withField n s (fun bs => .next (f bs)) = .next d)
    (he : withField n u (fun bs => .next (g bs)) = .next e) (hfg : ∀ bs, SamePass (f bs) (g bs)) : SamePass d e := by
  obtain ⟨l, p, ins, text, pay⟩ := h
  have hread : readField n s = readField n (s.elsewhere l p ins) := by
    rw [hs.readField_eq, hu.readField_eq, text]
    rfl
  unfold withField at hd he
  rw [← hread] at he
  cases hr : readField n s <;> rw [hr] at hd he <;> cases hd <;> cases he
  · exact hfg _
  · exact .mk (raiseParse s) l p ins text pay
  · exact .mk (finish .invalidDigit s) l p ins text pay

/-- The INIT step makes two states over the same line alike: it writes every register but `PAY`, and no cell is written
yet (R145). -/
theorem samePass_decInit {s u d e : State} (hcfg : s.cfg = u.cfg) (htext : lineText s = lineText u)
    (hstatus : s.dec.status = u.dec.status) (hd : exec .decInit s = .next d) (he : exec .decInit u = .next e) :
    SamePass d e := by
  have hswap : e = d.elsewhere u.la u.rcd.pay u.inputs := by
    cases hd
    cases he
    exact State.ext_fields rfl (by simp only [State.elsewhere, setDec_dec, hstatus]) rfl rfl hcfg.symm
  have htext' : lineText d = lineText e := by
    cases hd
    cases he
    exact htext
  have hnone : d.dec.didx = 0 := by
    cases hd
    rfl
  rw [hswap] at htext' ⊢
  exact .mk d _ _ _ htext' fun i hi => absurd (hnone ▸ hi) (Nat.not_lt_zero i)

/-- GET_DATA in two passes over the same line writes the same byte to the same cell (R155). -/
theorem SamePass.decGetData {s u d e : State} (h : SamePass s u) (hs : Inv s) (hu : Inv u) (hk : s.dec.state = .getData)
    (hd : exec .decGetData s = .next d) (he : exec .decGetData u = .next e) : SamePass d e := by
  obtain ⟨l, p, ins, text, pay⟩ := h
  obtain ⟨_, hlen, _, hdidx⟩ := hs.decoder.data_bounds hk
  have hroom := hdidx.trans_le hlen
  rw [exec_decGetData_eq hroom] at hd
  rw [exec_decGetData_eq (s := s.elsewhere l p ins) hroom] at he
  refine SamePass.of_withField (.mk s l p ins text pay) hs.line hu.line hd he fun bs => ?_
  refine .mk _ l (p.write payUnlisted s.dec.didx (BitVec.ofNat 8 (be bs))) ins text fun i hi => ?_
  have hwrite := payWrite_payByte s.dec.didx (BitVec.ofNat 8 (be bs)) hroom
    { s.rcd with pay := s.rcd.pay.write payUnlisted s.dec.didx (BitVec.ofNat 8 (be bs)) } rfl i
  have hwrite' := payWrite_payByte (s := s.elsewhere l p ins) s.dec.didx (BitVec.ofNat 8 (be bs)) hroom
    { s.rcd with pay := p.write payUnlisted s.dec.didx (BitVec.ofNat 8 (be bs)) } rfl i
  refine hwrite.trans (Eq.trans ?_ hwrite'.symm)
  split
  · rfl
  · next hne => exact pay i (Nat.lt_of_le_of_ne (Nat.le_of_lt_succ hi) hne)

/-- A decoder step of two passes over the same line. -/
theorem SamePass.decoderStep {s u d e : State} (h : SamePass s u) (hs : Inv s) (hu : Inv u)
    (hd : exec (decStateInstr s.dec.state) s = .next d) (he : exec (decStateInstr u.dec.state) u = .next e) :
    SamePass d e := by
  have hdec : s.dec.state = u.dec.state := by cases h; rfl
  rw [← hdec] at he
  cases hk : s.dec.state <;> rw [hk] at hd he
  case getData => exact h.decGetData hs hu hk hd he
  case getExt =>
    obtain ⟨n, hn⟩ := Option.isSome_iff_exists.1 (hs.decoder.ext_type hk)
    have ht := addressType_of_extBytes hn
    obtain ⟨l, p, ins, text, pay⟩ := h
    refine SamePass.of_withField (.mk s l p ins text pay) hs.line hu.line ((extField_eq_withField hn).symm.trans hd)
      ((extField_eq_withField (s := s.elsewhere l p ins) hn).symm.trans he) fun bs => ?_
    rw [writeExt_eq_setRcd ht, writeExt_eq_setRcd (s := s.elsewhere l p ins) ht]
    exact .mk _ l p ins text pay
  all_goals obtain ⟨l, p, ins, text, pay⟩ := h
  case getLength =>
    exact SamePass.of_withField (.mk s l p ins text pay) hs.line hu.line hd he fun bs => .mk _ l p ins text pay
  case getAddress =>
    exact SamePass.of_withField (.mk s l p ins text pay) hs.line hu.line hd he fun bs => .mk _ l p ins text pay
  case getType =>
    refine SamePass.of_withField (.mk s l p ins text pay) hs.line hu.line hd he fun bs => ?_
    simp only [branchOnType_eq_goto]
    exact .mk _ l p ins text pay
  case getChecksum =>
    exact SamePass.of_withField (.mk s l p ins text pay) hs.line hu.line hd he fun bs => .mk _ l p ins text pay
  case init => exact samePass_decInit (s := s) (u := s.elsewhere l p ins) rfl text rfl hd he
  case error => cases hd; cases he; exact .mk (finish .parseError s) l p ins text pay
  case done => cases hd; cases he; exact .mk s l p ins text pay

/-- WAITDEC runs two passes over the same line in lockstep (R86, R167). -/
theorem SamePass.waitDec : ∀ {n : Nat} {s u : State}, SamePass s u → Inv s → Inv u →
    ∃ s' u', waitDec n s = .next s' ∧ waitDec n u = .next u' ∧ SamePass s' u'
  | 0, s, u, h, _, _ => ⟨s, u, rfl, rfl, h⟩
  | n + 1, s, u, h, hs, hu => by
    have hstatus : s.dec.status = u.dec.status := by cases h; rfl
    by_cases hb : s.dec.status = .busy
    · have hbu := hstatus ▸ hb
      obtain ⟨d, hd⟩ := hs.decoderStep_answers
      obtain ⟨e, he⟩ := hu.decoderStep_answers
      have hcd := cycle_nop_of_step hb hd
      have hce := cycle_nop_of_step hbu he
      obtain ⟨s', u', hs', hu', h'⟩ := (h.decoderStep hs hu hd he).waitDec (n := n) (hs.after_cycle hcd) (hu.after_cycle hce)
      exact ⟨s', u', (waitDec_succ_of_busy hb hcd).trans hs', (waitDec_succ_of_busy hbu hce).trans hu', h'⟩
    · exact ⟨s, u, waitDec_of_not_busy _ hb, waitDec_of_not_busy _ (hstatus ▸ hb), h⟩

/-- Two whole passes over the same line end alike: INIT makes them alike, and the rest goes in lockstep. -/
theorem SamePass.hostDecode {s u : State} (hs : Inv s) (hu : Inv u) (hcfg : s.cfg = u.cfg)
    (htext : lineText s = lineText u) (hbs : s.dec.status ≠ .busy) (hbu : u.dec.status ≠ .busy) :
    ∃ s' u', hostDecode s = .next s' ∧ hostDecode u = .next u' ∧ SamePass s' u' := by
  have hcs := cycle_nop_of_step (s := startPass s) rfl rfl
  have hcu := cycle_nop_of_step (s := startPass u) rfl rfl
  have hsame := samePass_decInit (s := startPass s) (u := startPass u) hcfg htext rfl rfl rfl
  obtain ⟨s', u', hs', hu', h'⟩ :=
    hsame.waitDec (n := s.cfg.maxDataBytes + 5) (hs.start.after_cycle hcs) (hu.start.after_cycle hcu)
  refine ⟨s', u', (runTrace_decode hbs .waitdec).trans ?_, (runTrace_decode hbu .waitdec).trans ?_, h'⟩
  · exact (waitDec_succ_of_busy rfl hcs).trans hs'
  · rw [hcfg] at hu'
    exact (waitDec_succ_of_busy rfl hcu).trans hu'

end Sys2Proof.Machine

/-! What a pass finds in its line (O55, O57), and what it counts there (O56). `PassStage` says what the decoder and the record
hold after each step of a pass over a given text; every decoder step goes from one stage to the next. -/

namespace Sys2Proof.Machine

/-! ### The bytes of a line, field after field -/

/-- Characters convert pair by pair, so an even number of them converts apart from the rest (R122). -/
theorem pairs_append : ∀ {xs : List Byte} (ys : List Byte), xs.length % 2 = 0 →
    pairs (xs ++ ys) = (pairs xs).bind fun as => (pairs ys).map (as ++ ·)
  | [], ys, _ => by simp
  | [_], _, h => absurd h Nat.one_ne_zero
  | a :: b :: r, ys, h => by
    have hr : r.length % 2 = 0 := by simpa only [List.length_cons, Nat.add_assoc, Nat.reduceAdd, Nat.add_mod_right] using h
    simp only [List.cons_append, pairs_cons_cons, pairs_append ys hr]
    cases pairval a b <;> cases pairs r <;> cases pairs ys <;> rfl

/-- The bytes of a line's first characters are those of some of them and those of the rest. -/
theorem lineBytes_add (text : List Byte) {v : Nat} (w : Nat) (hv : v % 2 = 0) :
    lineBytes text (v + w) = (lineBytes text v).bind fun as => (lineBytes (text.drop v) w).map (as ++ ·) := by
  unfold lineBytes
  by_cases hle : v + w ≤ text.length
  · have hw : w ≤ (text.drop v).length := by rw [List.length_drop]; omega
    rw [if_pos hle, if_pos (by omega), if_pos hw, List.take_add, pairs_append _ (by rw [List.length_take]; omega)]
  · rw [if_neg hle]
    by_cases hvl : v ≤ text.length
    · have hw : ¬ w ≤ (text.drop v).length := by rw [List.length_drop]; omega
      rw [if_neg hw]
      cases pairs (text.take v) <;> simp [hvl]
    · rw [if_neg hvl]; rfl

/-- A line's bytes are those of twice as many characters, all of them there. -/
theorem length_of_lineBytes {text bs : List Byte} {w : Nat} (h : lineBytes text w = some bs) :
    w = 2 * bs.length ∧ w ≤ text.length := by
  unfold lineBytes at h
  split at h
  · next hle =>
    have hlen := length_of_pairs h
    rw [List.length_take, Nat.min_eq_left hle] at hlen
    exact ⟨hlen, hle⟩
  · cases h

/-- A line that is short of its first characters, or has a bad digit among them, has no bytes further on either. -/
theorem lineBytes_eq_none_of_le {text : List Byte} {v w : Nat} (h : lineBytes text v = none) (hv : v % 2 = 0)
    (hle : v ≤ w) : lineBytes text w = none := by
  rw [← Nat.add_sub_cancel' hle, lineBytes_add _ _ hv, h]
  rfl

/-- The bytes before the end of a line's bytes are the bytes of the characters before. -/
theorem lineBytes_of_append {text as bs : List Byte} {w : Nat} (h : lineBytes text w = some (as ++ bs)) :
    lineBytes text (2 * as.length) = some as := by
  obtain ⟨rfl, _⟩ := length_of_lineBytes h
  rw [List.length_append, Nat.mul_add, lineBytes_add _ _ (Nat.mul_mod_right 2 _)] at h
  obtain ⟨cs, hcs, hrest⟩ := Option.bind_eq_some_iff.1 h
  obtain ⟨ds, _, heq⟩ := Option.map_eq_some_iff.1 hrest
  have hlen : cs.length = as.length := by have := (length_of_lineBytes hcs).1; omega
  rw [hcs, (List.append_inj heq hlen).1]

/-- The bytes of more characters begin with the bytes of fewer. -/
theorem exists_append_of_lineBytes {text as bs : List Byte} {v w : Nat} (hv : lineBytes text v = some as)
    (hw : lineBytes text w = some bs) (hle : v ≤ w) : ∃ rest, bs = as ++ rest := by
  rw [← Nat.add_sub_cancel' hle, lineBytes_add _ _ (by have := (length_of_lineBytes hv).1; omega), hv] at hw
  obtain ⟨rest, _, heq⟩ := Option.map_eq_some_iff.1 hw
  exact ⟨rest, heq.symm⟩

/-! ### The record that a line holds (R166) -/

/-- Every record has its four header bytes and its checksum byte (R75). -/
theorem ten_le_of_charsNeeded {cfg : Config} {l t : Byte} {w : Nat} (h : charsNeeded cfg l t = some w) : 10 ≤ w := by
  unfold charsNeeded at h
  split_ifs at h
  · cases h; omega
  · cases h; omega
  · obtain ⟨n, _, rfl⟩ := Option.map_eq_some_iff.1 h; omega

/-- A line without its first eight characters in hex holds no record. -/
theorem recordBytes_eq_none {cfg : Config} {text : List Byte} {v : Nat} (h : lineBytes text v = none) (hv : v % 2 = 0)
    (hle : v ≤ 8) : recordBytes cfg text = none := by
  rw [recordBytes, lineBytes_eq_none_of_le h hv hle]

/-- After a whole header the type and the length say how far the record reaches. -/
theorem recordBytes_of_header {cfg : Config} {text : List Byte} {l ah al t : Byte}
    (h : lineBytes text 8 = some [l, ah, al, t]) :
    recordBytes cfg text = (charsNeeded cfg l t).bind (lineBytes text) := by
  rw [recordBytes, h]
  cases hw : charsNeeded cfg l t <;> simp only [hw] <;> rfl

/-- A line that ends, or has a bad digit, before the record is whole holds none. -/
theorem recordBytes_eq_none_of_body {cfg : Config} {text : List Byte} {l ah al t : Byte} {v w : Nat}
    (h : lineBytes text 8 = some [l, ah, al, t]) (hw : charsNeeded cfg l t = some w) (hv : v % 2 = 0) (hle : v ≤ w)
    (hnone : lineBytes text v = none) : recordBytes cfg text = none := by
  rw [recordBytes_of_header h, hw]
  exact lineBytes_eq_none_of_le hnone hv hle

/-- Every record has its four header bytes, and the bytes that its type and length ask for (R75, R166). -/
theorem exists_header_of_recordBytes {cfg : Config} {text bs : List Byte} (h : recordBytes cfg text = some bs) :
    ∃ l ah al t rest, lineBytes text 8 = some [l, ah, al, t] ∧ bs = l :: ah :: al :: t :: rest ∧
      charsNeeded cfg l t = some (8 + 2 * rest.length) := by
  cases hh : lineBytes text 8 with
  | none => exact absurd ((recordBytes_eq_none hh rfl (Nat.le_refl 8)).symm.trans h) nofun
  | some hs =>
    have hlen : hs.length = 4 := by have := (length_of_lineBytes hh).1; omega
    obtain ⟨l, ah, al, t, rfl⟩ : ∃ l ah al t, hs = [l, ah, al, t] := by
      match hs, hlen with
      | [l, ah, al, t], _ => exact ⟨l, ah, al, t, rfl⟩
    rw [recordBytes_of_header hh] at h
    obtain ⟨w, hw, hbs⟩ := Option.bind_eq_some_iff.1 h
    have hten := ten_le_of_charsNeeded hw
    obtain ⟨rest, rfl⟩ := exists_append_of_lineBytes hh hbs (by omega)
    refine ⟨l, ah, al, t, rest, rfl, rfl, ?_⟩
    rw [hw, (length_of_lineBytes hbs).1, List.length_append, Nat.mul_add]
    rfl

/-- A Data record with a payload that fits is as long as its length byte says. -/
theorem charsNeeded_data {cfg : Config} {l : Byte} (h : l.toNat ≤ cfg.maxDataBytes) :
    charsNeeded cfg l 0x00#8 = some (10 + 2 * l.toNat) := by
  rw [charsNeeded, if_pos rfl, if_pos h]

/-- An address record is as long as its field's width says. -/
theorem charsNeeded_ext {cfg : Config} {t : Byte} {n : Nat} (l : Byte) (h : cfg.extBytes t = some n) :
    charsNeeded cfg l t = some (10 + 2 * n) := by
  obtain rfl | rfl | rfl | rfl := addressType_of_extBytes h <;>
    exact congrArg (Option.map fun n => 10 + 2 * n) h

/-- A payload too long, or an unknown type, makes no record (R149, R152). -/
theorem charsNeeded_eq_none {cfg : Config} {l t : Byte}
    (h : (t = 0x00#8 ∧ cfg.maxDataBytes < l.toNat) ∨
      (t ≠ 0x00#8 ∧ t ≠ 0x01#8 ∧ t ≠ 0x02#8 ∧ t ≠ 0x03#8 ∧ t ≠ 0x04#8 ∧ t ≠ 0x05#8)) : charsNeeded cfg l t = none := by
  obtain ⟨rfl, hlt⟩ | ⟨h0, h1, h2, h3, h4, h5⟩ := h
  · rw [charsNeeded, if_pos rfl, if_neg (Nat.not_le.2 hlt)]
  · have hnone : cfg.extBytes t = none := by simp only [Config.extBytes, h2, h3, h4, h5, if_false]
    rw [charsNeeded, if_neg h0, if_neg h1, hnone]
    rfl

/-- The payload of a Data record is as long as its length says, and fits in `PAY` (R149). -/
theorem length_of_charsNeeded_data {cfg : Config} {l : Byte} {m : Nat}
    (h : charsNeeded cfg l 0x00#8 = some (2 * (m + 5))) : m = l.toNat ∧ m ≤ cfg.maxDataBytes := by
  rw [charsNeeded, if_pos rfl] at h
  split at h
  · next hle =>
    have hm : 10 + 2 * l.toNat = 2 * (m + 5) := Option.some.inj h
    omega
  · cases h

/-- The steps of a pass by the type byte of its record (R165). -/
theorem passSteps_cons (l ah al t : Byte) (rest : List Byte) :
    passSteps (l :: ah :: al :: t :: rest) = if t = 0x00#8 ∨ t = 0x01#8 then rest.length + 4 else 6 := by
  simp [passSteps]

/-! ### The field at the cursor of a pass -/

/-- A field step of a pass that has read the bytes `as` of its line: it fails where the line has no bytes so far, and
else has its bytes at the cursor. -/
theorem LineInv.field_of_pass {s : State} {k : DecState} {n : Nat} {as : List Byte} (hl : LineInv s.cfg s.la)
    (hn : fieldWidth s k = some n) (hread : lineBytes (lineText s) (2 * as.length) = some as)
    (hrd : s.dec.rdPtr = 2 * as.length) :
    (lineBytes (lineText s) (2 * (as.length + n)) = none ∧
      (exec (decStateInstr k) s = .next (raiseParse s) ∨ exec (decStateInstr k) s = .next (finish .invalidDigit s))) ∨
    (∃ bs, bs.length = n ∧ lineBytes (lineText s) (2 * (as.length + n)) = some (as ++ bs) ∧ FieldBytes n s bs) := by
  obtain ⟨body, hbody⟩ := exec_eq_withField_of_fieldWidth hn
  have hlen := (length_of_lineBytes hread).2
  rw [hl.length_lineText] at hlen
  rw [Nat.mul_add, lineBytes_add _ _ (Nat.mul_mod_right 2 _), hread, ← hrd, hbody]
  by_cases hb : s.dec.rdPtr + 2 * n ≤ s.la.lineLen
  · have hfield := hl.fieldChars_lineText hb
    have hrest : 2 * n ≤ ((lineText s).drop s.dec.rdPtr).length := by
      rw [List.length_drop, hl.length_lineText]
      omega
    rw [lineBytes, if_pos hrest]
    cases hp : pairs (((lineText s).drop s.dec.rdPtr).take (2 * n)) with
    | none =>
      refine .inl ⟨rfl, .inr ?_⟩
      rw [withField_chars hfield.1 hfield.2.1 hfield.2.2, hp]
    | some bs => exact .inr ⟨bs, by have := length_of_pairs hp; have := hfield.2.1; omega, rfl, _, hfield, hp⟩
  · have hrest : ¬ 2 * n ≤ ((lineText s).drop s.dec.rdPtr).length := by
      rw [List.length_drop, hl.length_lineText]
      omega
    rw [lineBytes, if_neg hrest]
    exact .inl ⟨rfl, .inl (withField_short (Nat.lt_of_not_le hb))⟩

/-! ### The stages of a pass -/

/-- The payload store `p` holds the payload bytes read so far, and else what `p₀` held (R155). -/
def PayRead (p₀ : Memory) (data : List Byte) (p : Memory) : Prop :=
  ∀ i, p.read payUnlisted i = if i < data.length then data[i]? else p₀.read payUnlisted i

theorem payRead_nil (p : Memory) : PayRead p [] p := fun _ => rfl

/-- One more payload byte, written behind the ones read so far (R155). -/
theorem PayRead.snoc {p₀ p : Memory} {data : List Byte} (h : PayRead p₀ data p) (b : Byte) :
    PayRead p₀ (data ++ [b]) (p.write payUnlisted data.length b) := fun i => by
  rw [read_write, h i, List.length_append, List.length_singleton]
  obtain hlt | rfl | hgt := Nat.lt_trichotomy i data.length
  · rw [if_neg hlt.ne, if_pos hlt, if_pos (Nat.lt_succ_of_lt hlt), List.getElem?_append_left hlt]
  · rw [if_pos rfl, if_pos (Nat.lt_succ_self _), List.getElem?_concat_length]
  · rw [if_neg hgt.ne', if_neg (Nat.lt_asymm hgt), if_neg (Nat.not_lt.2 hgt)]

/-- The record registers after a header and the bytes `body` behind it (R76): for an address record the body is its
field. -/
def fieldsRead (l ah al t : Byte) (body : List Byte) (p : Memory) : Record where
  length := l
  address := ah ++ al
  type := t
  offset := if t = 0x02#8 ∨ t = 0x04#8 then BitVec.ofNat 32 (be body) else 0#32
  start := if t = 0x03#8 ∨ t = 0x05#8 then BitVec.ofNat 32 (be body) else 0#32
  checksum := sum8 ([l, ah, al, t] ++ body)
  valid := false
  pay := p

/-- The bytes of a body that are payload: only a Data record has any (R76). -/
def payloadOf (t : Byte) (body : List Byte) : List Byte := if t = 0x00#8 then body else []

/-- What a pass over the line `text` has come to after `k` of its steps, with the payload store `p₀` at its start: what
the decoder and the record hold, and which bytes of the line it has read. A pass that fails says that the line holds no
record, and a pass that reads its checksum byte, that the line holds one. -/
inductive PassStage (cfg : Config) (text : List Byte) (p₀ : Memory) : Nat → Decoder → Record → Prop
  | init {d : Decoder} {r : Record} (state : d.state = .init) (busy : d.status = .busy) (pay : r.pay = p₀) :
      PassStage cfg text p₀ 0 d r
  | getLength : PassStage cfg text p₀ 1 ⟨.getLength, .busy, 0, 0⟩ { Record.reset with pay := p₀ }
  | getAddress {l : Byte} (read : lineBytes text 2 = some [l]) :
      PassStage cfg text p₀ 2 ⟨.getAddress, .busy, 2, 0⟩ { Record.reset with length := l, checksum := sum8 [l], pay := p₀ }
  | getType {l ah al : Byte} (read : lineBytes text 6 = some [l, ah, al]) :
      PassStage cfg text p₀ 3 ⟨.getType, .busy, 6, 0⟩
        { Record.reset with length := l, address := ah ++ al, checksum := sum8 [l, ah, al], pay := p₀ }
  | getData {l ah al : Byte} {data : List Byte} {p : Memory}
      (read : lineBytes text (2 * (data.length + 4)) = some ([l, ah, al, 0x00#8] ++ data))
      (short : data.length < l.toNat) (fits : l.toNat ≤ cfg.maxDataBytes) (pay : PayRead p₀ data p) :
      PassStage cfg text p₀ (data.length + 4) ⟨.getData, .busy, 2 * (data.length + 4), data.length⟩
        (fieldsRead l ah al 0x00#8 data p)
  | getExt {l ah al t : Byte} {n : Nat} (read : lineBytes text 8 = some [l, ah, al, t]) (width : cfg.extBytes t = some n) :
      PassStage cfg text p₀ 4 ⟨.getExt, .busy, 8, 0⟩ (fieldsRead l ah al t [] p₀)
  | getChecksum {l ah al t : Byte} {body : List Byte} {p : Memory} {k : Nat}
      (read : lineBytes text (2 * (body.length + 4)) = some ([l, ah, al, t] ++ body))
      (needed : charsNeeded cfg l t = some (2 * (body.length + 5))) (pay : PayRead p₀ (payloadOf t body) p)
      (steps : k = if t = 0x00#8 ∨ t = 0x01#8 then body.length + 4 else 5) :
      PassStage cfg text p₀ k ⟨.getChecksum, .busy, 2 * (body.length + 4), (payloadOf t body).length⟩
        (fieldsRead l ah al t body p)
  | error {d : Decoder} {r : Record} {k : Nat} (noRecord : recordBytes cfg text = none) (state : d.state = .error)
      (busy : d.status = .busy) (invalid : r.valid = false) : PassStage cfg text p₀ k d r
  | failed {d : Decoder} {r : Record} {k : Nat} (noRecord : recordBytes cfg text = none)
      (status : d.status = .parseError ∨ d.status = .invalidDigit) (invalid : r.valid = false) : PassStage cfg text p₀ k d r
  | whole {l ah al t cc : Byte} {body : List Byte} {d : Decoder} {r : Record} {p : Memory} {k : Nat}
      (record : recordBytes cfg text = some ([l, ah, al, t] ++ body ++ [cc]))
      (needed : charsNeeded cfg l t = some (2 * (body.length + 5))) (pay : PayRead p₀ (payloadOf t body) p)
      (steps : passSteps ([l, ah, al, t] ++ body ++ [cc]) ≤ k) (didx : d.didx = (payloadOf t body).length)
      (status : d.status = if cc = neg8 (sum8 ([l, ah, al, t] ++ body)) then .successful else .checksumError)
      (registers : r = { fieldsRead l ah al t body p with valid := decide (cc = neg8 (sum8 ([l, ah, al, t] ++ body))) }) :
      PassStage cfg text p₀ k d r

/-! ### Each decoder step goes to the next stage -/

section
variable {s d : State} {p₀ : Memory} {m : Nat}

/-- A field step of a pass goes to the next stage if it does so with its bytes read, and if a line without them holds no
record. -/
theorem PassStage.of_field {k : DecState} {n : Nat} {as : List Byte} (hl : LineInv s.cfg s.la)
    (hn : fieldWidth s k = some n) (hread : lineBytes (lineText s) (2 * as.length) = some as)
    (hrd : s.dec.rdPtr = 2 * as.length) (hb : s.dec.status = .busy) (hv : s.rcd.valid = false)
    (hd : exec (decStateInstr k) s = .next d)
    (hnone : lineBytes (lineText s) (2 * (as.length + n)) = none → recordBytes s.cfg (lineText s) = none)
    (hok : ∀ bs, bs.length = n → lineBytes (lineText s) (2 * (as.length + n)) = some (as ++ bs) → FieldBytes n s bs →
      PassStage s.cfg (lineText s) p₀ m d.dec d.rcd) : PassStage s.cfg (lineText s) p₀ m d.dec d.rcd := by
  obtain ⟨h, he | he⟩ | ⟨bs, hlen, hbs, hf⟩ := hl.field_of_pass hn hread hrd
  · cases hd.symm.trans he
    exact .error (hnone h) rfl hb hv
  · cases hd.symm.trans he
    exact .failed (hnone h) (.inr rfl) hv
  · exact hok bs hlen hbs hf

/-- GET_LENGTH has read the first byte of the line (R146). -/
theorem passStage_getLength (hl : LineInv s.cfg s.la) (hdec : s.dec = ⟨.getLength, .busy, 0, 0⟩)
    (hrcd : s.rcd = { Record.reset with pay := p₀ }) (hd : exec .decGetLength s = .next d) :
    PassStage s.cfg (lineText s) p₀ 2 d.dec d.rcd := by
  refine .of_field (k := .getLength) (as := []) hl rfl rfl (by rw [hdec]; rfl) (by rw [hdec]) (by rw [hrcd]; rfl) hd
    (fun h => recordBytes_eq_none h (Nat.mul_mod_right 2 _) (by simp)) fun bs hlen hread hf => ?_
  obtain ⟨l, rfl⟩ := List.length_eq_one_iff.1 hlen
  cases hd.symm.trans ((getLengthStoresLength.2 s).2 l hf)
  rw [hdec, hrcd]
  exact .getAddress hread

/-- GET_ADDRESS has read the first three bytes of the line (R147). -/
theorem passStage_getAddress {l : Byte} (hl : LineInv s.cfg s.la) (hread : lineBytes (lineText s) 2 = some [l])
    (hdec : s.dec = ⟨.getAddress, .busy, 2, 0⟩)
    (hrcd : s.rcd = { Record.reset with length := l, checksum := sum8 [l], pay := p₀ })
    (hd : exec .decGetAddress s = .next d) : PassStage s.cfg (lineText s) p₀ 3 d.dec d.rcd := by
  refine .of_field (k := .getAddress) (as := [l]) hl rfl hread (by rw [hdec]; rfl) (by rw [hdec]) (by rw [hrcd]; rfl) hd
    (fun h => recordBytes_eq_none h (Nat.mul_mod_right 2 _) (by simp)) fun bs hlen hread' hf => ?_
  obtain ⟨ah, al, rfl⟩ := List.length_eq_two.1 hlen
  cases hd.symm.trans ((getAddressStoresAddress.2 s).2 ah al hf)
  rw [hdec, hrcd]
  exact .getType hread'

/-- Before any byte behind the header, both address registers are 0. -/
theorem fieldsRead_nil (l ah al t : Byte) (p : Memory) : fieldsRead l ah al t [] p =
    { Record.reset with length := l, address := ah ++ al, type := t, checksum := sum8 [l, ah, al, t], pay := p } := by
  simp only [fieldsRead, be_nil, ite_self]
  rfl

/-- The branch on the type goes on to the part of the record that the type asks for, or finds that the line holds none. -/
theorem passStage_branchOnType {cfg : Config} {text : List Byte} {u : State} {l ah al t : Byte} (hcfg : u.cfg = cfg)
    (hread : lineBytes text 8 = some [l, ah, al, t])
    (hdec : u.dec = ⟨.getType, .busy, 8, 0⟩) (hrcd : u.rcd = fieldsRead l ah al t [] p₀) :
    PassStage cfg text p₀ 4 (branchOnType t u).dec (branchOnType t u).rcd := by
  have hlength : u.rcd.length = l := congrArg Record.length hrcd
  obtain ⟨rfl, hfits, hne, e⟩ | ⟨rfl, hzero, e⟩ | ⟨rfl, e⟩ | ⟨ht, e⟩ | ⟨hbad, e⟩ := branchOnType_cases t u <;>
    rw [e] <;> simp only [goto, raiseParse, setDec_dec, setDec_rcd, hdec, hrcd]
  · rw [hlength, hcfg] at hfits
    rw [hlength] at hne
    have hpos : 0 < l.toNat := Nat.pos_of_ne_zero fun hz => hne (BitVec.eq_of_toNat_eq hz)
    exact .getData (data := []) hread hpos hfits (payRead_nil _)
  · have hl0 : l = 0#8 := hlength.symm.trans hzero
    subst hl0
    exact .getChecksum (body := []) hread (charsNeeded_data (Nat.zero_le _)) (payRead_nil _) rfl
  · exact .getChecksum (body := []) hread rfl (payRead_nil _) rfl
  · obtain ⟨_, hn | hn⟩ | ⟨h2, h3, h4, h5, _⟩ := extBytes_cases cfg t
    · exact .getExt hread hn
    · exact .getExt hread hn
    · simp only [h2, h3, h4, h5, or_self] at ht
  · rw [hlength, hcfg] at hbad
    exact .error (by rw [recordBytes_of_header hread, charsNeeded_eq_none hbad]; rfl) rfl rfl rfl

/-- GET_TYPE has read the whole header of the line, and branches on its last byte (R148). -/
theorem passStage_getType {l ah al : Byte} (hl : LineInv s.cfg s.la) (hread : lineBytes (lineText s) 6 = some [l, ah, al])
    (hdec : s.dec = ⟨.getType, .busy, 6, 0⟩)
    (hrcd : s.rcd = { Record.reset with length := l, address := ah ++ al, checksum := sum8 [l, ah, al], pay := p₀ })
    (hd : exec .decGetType s = .next d) : PassStage s.cfg (lineText s) p₀ 4 d.dec d.rcd := by
  refine .of_field (k := .getType) (as := [l, ah, al]) hl rfl hread (by rw [hdec]; rfl) (by rw [hdec]) (by rw [hrcd]; rfl)
    hd (fun h => recordBytes_eq_none h (Nat.mul_mod_right 2 _) (by simp)) fun bs hlen hread' hf => ?_
  obtain ⟨t, rfl⟩ := List.length_eq_one_iff.1 hlen
  cases hd.symm.trans (exec_decGetType_of_fieldBytes hf)
  refine passStage_branchOnType rfl hread' (by simp only [hdec]) ?_
  simp only [hrcd, fieldsRead_nil]
  rfl

/-- One more payload byte in the record registers (R155). -/
theorem fieldsRead_data_snoc (l ah al b : Byte) (data : List Byte) (p q : Memory) :
    ({ fieldsRead l ah al 0x00#8 data p with checksum := sum8 ([l, ah, al, 0x00#8] ++ data) + b, pay := q } : Record) =
      fieldsRead l ah al 0x00#8 (data ++ [b]) q := by
  rw [← sum8_append, List.append_assoc]
  rfl

/-- GET_DATA counts its byte, and goes on to GET_CHECKSUM from the last one of the payload (R155). -/
theorem passStage_getData {l ah al : Byte} {data : List Byte} {p : Memory} (hl : LineInv s.cfg s.la)
    (hread : lineBytes (lineText s) (2 * (data.length + 4)) = some ([l, ah, al, 0x00#8] ++ data))
    (hshort : data.length < l.toNat) (hfits : l.toNat ≤ s.cfg.maxDataBytes) (hpay : PayRead p₀ data p)
    (hdec : s.dec = ⟨.getData, .busy, 2 * (data.length + 4), data.length⟩) (hrcd : s.rcd = fieldsRead l ah al 0x00#8 data p)
    (hd : exec .decGetData s = .next d) : PassStage s.cfg (lineText s) p₀ (data.length + 5) d.dec d.rcd := by
  have hneeded := charsNeeded_data hfits
  refine .of_field (k := .getData) (as := [l, ah, al, 0x00#8] ++ data) hl rfl hread (by rw [hdec]; rfl) (by rw [hdec])
    (by rw [hrcd]; rfl) hd
    (fun h => recordBytes_eq_none_of_body (lineBytes_of_append hread) hneeded (Nat.mul_mod_right 2 _)
      (by simp only [List.length_append, List.length_cons, List.length_nil]; omega) h) fun bs hlen hread' hf => ?_
  obtain ⟨b, rfl⟩ := List.length_eq_one_iff.1 hlen
  have hroom : s.dec.didx < s.cfg.maxDataBytes := by rw [hdec]; exact hshort.trans_le hfits
  cases hd.symm.trans (exec_decGetData_of_fieldBytes hf hroom)
  have hsnoc : (data ++ [b]).length = data.length + 1 := by rw [List.length_append, List.length_singleton]
  have hread'' : lineBytes (lineText s) (2 * (data.length + 1 + 4)) = some ([l, ah, al, 0x00#8] ++ (data ++ [b])) := by
    rw [← List.append_assoc]
    exact hread'
  have hpay' := hpay.snoc b
  have hregs := fieldsRead_data_snoc l ah al b data p (p.write payUnlisted data.length b)
  rw [← hsnoc] at hread''
  simp only [hdec, hrcd]
  have hlength : (fieldsRead l ah al 0x00#8 data p).length = l := rfl
  rw [hlength]
  by_cases hlast : data.length + 1 = l.toNat
  · rw [if_pos hlast]
    have hchars : 10 + 2 * l.toNat = 2 * ((data ++ [b]).length + 5) := by omega
    have hstage := PassStage.getChecksum hread'' (hneeded.trans (congrArg some hchars)) hpay' rfl
    rw [← hregs] at hstage
    simp only [payloadOf, if_true, true_or, hsnoc] at hstage
    exact hstage
  · rw [if_neg hlast]
    have hstage := PassStage.getData hread'' (by omega) hfits hpay'
    rw [← hregs, hsnoc] at hstage
    exact hstage

/-- The value of an address record's field in the record registers (R157). -/
theorem fieldsRead_field (l ah al t : Byte) (bs : List Byte) (p : Memory) :
    ({ fieldsRead l ah al t [] p with
        offset := if t = 0x02#8 ∨ t = 0x04#8 then BitVec.ofNat 32 (be bs) else (fieldsRead l ah al t [] p).offset
        start := if t = 0x03#8 ∨ t = 0x05#8 then BitVec.ofNat 32 (be bs) else (fieldsRead l ah al t [] p).start
        checksum := (fieldsRead l ah al t [] p).checksum + sum8 bs } : Record) = fieldsRead l ah al t bs p := by
  rw [fieldsRead_nil, fieldsRead, sum8_append_list]
  rfl

/-- GET_EXT goes on to GET_CHECKSUM with the field's value in the register of the type (R157). -/
theorem passStage_getExt {l ah al t : Byte} {n : Nat} (hl : LineInv s.cfg s.la)
    (hread : lineBytes (lineText s) 8 = some [l, ah, al, t]) (hn : s.cfg.extBytes t = some n)
    (hdec : s.dec = ⟨.getExt, .busy, 8, 0⟩) (hrcd : s.rcd = fieldsRead l ah al t [] p₀)
    (hd : exec .decGetExt s = .next d) : PassStage s.cfg (lineText s) p₀ 5 d.dec d.rcd := by
  have hneeded := charsNeeded_ext l hn
  have htype : s.cfg.extBytes s.rcd.type = some n := by rw [hrcd]; exact hn
  refine .of_field (k := .getExt) (as := [l, ah, al, t]) hl htype hread (by rw [hdec]; rfl) (by rw [hdec])
    (by rw [hrcd]; rfl) hd
    (fun h => recordBytes_eq_none_of_body hread hneeded (Nat.mul_mod_right 2 _)
      (by simp only [List.length_cons, List.length_nil]; omega) h) fun bs hlen hread' hf => ?_
  have ht := addressType_of_extBytes hn
  have hdata : payloadOf t bs = [] := by obtain rfl | rfl | rfl | rfl := ht <;> rfl
  have hsteps : 5 = if t = 0x00#8 ∨ t = 0x01#8 then bs.length + 4 else 5 := by
    obtain rfl | rfl | rfl | rfl := ht <;> rfl
  have hchars : 10 + 2 * n = 2 * (bs.length + 5) := by omega
  have hcursor : 8 + 2 * n = 2 * (bs.length + 4) := by omega
  have hread'' : lineBytes (lineText s) (2 * (bs.length + 4)) = some ([l, ah, al, t] ++ bs) := by
    rw [← hread', ← hcursor]
    exact congrArg (lineBytes _) (Nat.mul_add 2 4 n).symm
  have hstage := PassStage.getChecksum (p := p₀) hread'' (hneeded.trans (congrArg some hchars))
    (hdata ▸ payRead_nil p₀) hsteps
  cases hd.symm.trans (extField_of_fieldBytes htype hf)
  simp only [hdec, hrcd]
  rw [hdata, ← fieldsRead_field, ← hcursor] at hstage
  exact hstage

/-- GET_CHECKSUM reads the last byte of the record that the line holds, and compares it (R162). -/
theorem passStage_getChecksum {l ah al t : Byte} {body : List Byte} {p : Memory} {k : Nat} (hl : LineInv s.cfg s.la)
    (hread : lineBytes (lineText s) (2 * (body.length + 4)) = some ([l, ah, al, t] ++ body))
    (hneeded : charsNeeded s.cfg l t = some (2 * (body.length + 5))) (hpay : PayRead p₀ (payloadOf t body) p)
    (hsteps : k = if t = 0x00#8 ∨ t = 0x01#8 then body.length + 4 else 5)
    (hdec : s.dec = ⟨.getChecksum, .busy, 2 * (body.length + 4), (payloadOf t body).length⟩)
    (hrcd : s.rcd = fieldsRead l ah al t body p) (hd : exec .decGetChecksum s = .next d) :
    PassStage s.cfg (lineText s) p₀ (k + 1) d.dec d.rcd := by
  have hheader := lineBytes_of_append hread
  refine .of_field (k := .getChecksum) (as := [l, ah, al, t] ++ body) hl rfl hread (by rw [hdec]; rfl) (by rw [hdec])
    (by rw [hrcd]; rfl) hd
    (fun h => recordBytes_eq_none_of_body hheader hneeded (Nat.mul_mod_right 2 _) (Nat.le_refl _) h)
    fun bs hlen hread' hf => ?_
  obtain ⟨cc, rfl⟩ := List.length_eq_one_iff.1 hlen
  have hrecord : recordBytes s.cfg (lineText s) = some ([l, ah, al, t] ++ body ++ [cc]) := by
    rw [recordBytes_of_header hheader, hneeded]
    exact hread'
  cases hd.symm.trans (exec_decGetChecksum_of_fieldBytes hf)
  refine .whole hrecord hneeded hpay ?_ ?_ ?_ ?_
  · show passSteps (l :: ah :: al :: t :: (body ++ [cc])) ≤ k + 1
    rw [passSteps_cons, hsteps, List.length_append, List.length_singleton]
    split
    · omega
    · omega
  · exact (congrArg Decoder.didx hdec :)
  · rw [finish_status, hrcd]
    exact if_congr checksumMatches_iff rfl rfl
  · rw [finish_rcd, hrcd]
    rfl

/-- A decoder step of a pass goes from its stage to the next. -/
theorem PassStage.decoderStep {k : Nat} (h : PassStage s.cfg (lineText s) p₀ k s.dec s.rcd) (hl : LineInv s.cfg s.la)
    (hb : s.dec.status = .busy) (hd : exec (decStateInstr s.dec.state) s = .next d) :
    PassStage s.cfg (lineText s) p₀ (k + 1) d.dec d.rcd := by
  generalize hdec : s.dec = dec at h hb hd
  generalize hrcd : s.rcd = rcd at h
  cases h with
  | init state _ pay =>
    rw [state] at hd
    cases hd
    simp only [setDec_dec, setDec_rcd, setRcd_rcd, hdec, hb, hrcd, Record.cleared, pay]
    exact .getLength
  | getLength => exact passStage_getLength hl hdec hrcd hd
  | getAddress read => exact passStage_getAddress hl read hdec hrcd hd
  | getType read => exact passStage_getType hl read hdec hrcd hd
  | getData read short fits pay => exact passStage_getData hl read short fits pay hdec hrcd hd
  | getExt read width => exact passStage_getExt hl read width hdec hrcd hd
  | getChecksum read needed pay steps => exact passStage_getChecksum hl read needed pay steps hdec hrcd hd
  | error noRecord state _ invalid =>
    rw [state] at hd
    cases hd
    exact .failed noRecord (.inl rfl) (hrcd.symm ▸ invalid)
  | failed _ status => obtain hs | hs := status <;> cases hb.symm.trans hs
  | whole _ _ _ _ _ status =>
    rw [hb] at status
    split at status <;> cases status

end

/-- A pass that has ended has found that the line holds no record, or has read the whole of it (R166). -/
theorem PassStage.ended_cases {cfg : Config} {text : List Byte} {p₀ : Memory} {k : Nat} {d : Decoder} {r : Record}
    (h : PassStage cfg text p₀ k d r) (hb : d.status ≠ .busy) :
    (recordBytes cfg text = none ∧ (d.status = .parseError ∨ d.status = .invalidDigit) ∧ r.valid = false) ∨
    (∃ l ah al t body cc p, recordBytes cfg text = some ([l, ah, al, t] ++ body ++ [cc]) ∧
      charsNeeded cfg l t = some (2 * (body.length + 5)) ∧ PayRead p₀ (payloadOf t body) p ∧
      passSteps ([l, ah, al, t] ++ body ++ [cc]) ≤ k ∧ d.didx = (payloadOf t body).length ∧
      d.status = (if cc = neg8 (sum8 ([l, ah, al, t] ++ body)) then .successful else .checksumError) ∧
      r = { fieldsRead l ah al t body p with valid := decide (cc = neg8 (sum8 ([l, ah, al, t] ++ body))) }) := by
  cases h with
  | init _ busy | error _ _ busy => exact absurd busy hb
  | getLength | getAddress | getType | getData | getExt | getChecksum => exact absurd rfl hb
  | failed noRecord status invalid => exact .inl ⟨noRecord, status, invalid⟩
  | whole record needed pay steps didx status registers =>
    exact .inr ⟨_, _, _, _, _, _, _, record, needed, pay, steps, didx, status, registers⟩

/-- The stage of a pass that has ended holds for any number of further steps. -/
theorem PassStage.succ_of_not_busy {cfg : Config} {text : List Byte} {p₀ : Memory} {k : Nat} {d : Decoder} {r : Record}
    (h : PassStage cfg text p₀ k d r) (hb : d.status ≠ .busy) : PassStage cfg text p₀ (k + 1) d r := by
  obtain ⟨hnone, hs, hv⟩ | ⟨l, ah, al, t, body, cc, p, hbs, hw, hp, hk, hdidx, hs, hr⟩ := h.ended_cases hb
  · exact .failed hnone hs hv
  · exact .whole hbs hw hp (Nat.le_succ_of_le hk) hdidx hs hr

/-- NOP cycles take a pass from stage to stage, with the line and the parameters standing. -/
theorem PassStage.runWords_nops {p₀ : Memory} : ∀ {n k : Nat} {s : State}, Inv s →
    PassStage s.cfg (lineText s) p₀ k s.dec s.rcd →
    ∃ t, runWords (List.replicate n nopWord) s = .next t ∧ PassStage s.cfg (lineText s) p₀ (k + n) t.dec t.rcd ∧
      t.cfg = s.cfg
  | 0, _, s, _, h => ⟨s, rfl, h, rfl⟩
  | n + 1, k, s, hs, h => by
    by_cases hb : s.dec.status = .busy
    · obtain ⟨d, hd⟩ := hs.decoderStep_answers
      have hc := cycle_nop_of_step hb hd
      have htext : d.cfg = s.cfg ∧ lineText d = lineText s := by rw [decoderStep_frame hd]; exact ⟨rfl, rfl⟩
      have hstage := h.decoderStep hs.line hb hd
      rw [← htext.1, ← htext.2] at hstage
      obtain ⟨t, ht, htstage, htcfg⟩ := hstage.runWords_nops (n := n) (hs.after_cycle hc)
      rw [htext.1, htext.2, Nat.add_right_comm] at htstage
      exact ⟨t, (runWords_cons hc).trans ht, htstage, htcfg.trans htext.1⟩
    · obtain ⟨t, ht, htstage, htcfg⟩ := (h.succ_of_not_busy hb).runWords_nops (n := n) hs
      rw [Nat.add_right_comm] at htstage
      exact ⟨t, (runWords_cons (cycle_nop_of_not_busy hb)).trans ht, htstage, htcfg⟩

/-- DECODE and `n` NOP cycles bring a pass to its stage after `n` steps. -/
theorem Inv.passStage_after {s : State} (h : Inv s) (hb : s.dec.status ≠ .busy) (n : Nat) :
    ∃ t, runTrace [.decode, .idle n] s = .next t ∧ PassStage s.cfg (lineText s) s.rcd.pay n t.dec t.rcd ∧
      t.cfg = s.cfg := by
  obtain ⟨t, ht, hstage, hcfg⟩ := PassStage.runWords_nops (n := n) (p₀ := s.rcd.pay) h.start (.init rfl rfl rfl)
  rw [Nat.zero_add] at hstage
  exact ⟨t, (runTrace_decode hb _).trans ht, hstage, hcfg⟩

/-! ### The steps of a pass over a whole record (R165, R250) -/

/-- The steps of a pass by the header of its record. -/
theorem passSteps_of_header {cfg : Config} {text bs : List Byte} {l ah al t : Byte} {m : Nat}
    (h : recordBytes cfg text = some bs) (hh : lineBytes text 8 = some [l, ah, al, t])
    (hw : charsNeeded cfg l t = some (2 * (m + 5))) :
    passSteps bs = if t = 0x00#8 ∨ t = 0x01#8 then m + 5 else 6 := by
  obtain ⟨l', ah', al', t', rest, hh', rfl, hw'⟩ := exists_header_of_recordBytes h
  cases hh.symm.trans hh'
  have hrest : 2 * (m + 5) = 8 + 2 * rest.length := Option.some.inj (hw.symm.trans hw')
  rw [passSteps_cons, show rest.length + 4 = m + 5 by omega]

/-- No pass over a whole record takes fewer than five steps. -/
theorem five_le_passSteps {cfg : Config} {text bs : List Byte} (h : recordBytes cfg text = some bs) : 5 ≤ passSteps bs := by
  obtain ⟨l, ah, al, t, rest, _, rfl, hw⟩ := exists_header_of_recordBytes h
  have hten := ten_le_of_charsNeeded hw
  rw [passSteps_cons]
  split
  · omega
  · omega

/-- A pass over a whole record that is running has a step of it to take. -/
theorem PassStage.lt_passSteps {cfg : Config} {text bs : List Byte} {p₀ : Memory} {k : Nat} {d : Decoder} {r : Record}
    (h : PassStage cfg text p₀ k d r) (hb : d.status = .busy) (hbs : recordBytes cfg text = some bs) :
    k < passSteps bs := by
  have hfive := five_le_passSteps hbs
  cases h with
  | init | getLength | getAddress | getType | getExt => omega
  | @getData l ah al data p read short fits pay =>
    have hneeded := (charsNeeded_data fits).trans (congrArg some (by omega : 10 + 2 * l.toNat = 2 * (l.toNat + 5)))
    rw [passSteps_of_header hbs (lineBytes_of_append read) hneeded, if_pos (.inl rfl)]
    omega
  | getChecksum read needed pay steps =>
    rw [passSteps_of_header hbs (lineBytes_of_append read) needed, steps]
    split
    · omega
    · omega
  | error noRecord => cases noRecord.symm.trans hbs
  | failed noRecord => cases noRecord.symm.trans hbs
  | whole _ _ _ _ _ status =>
    rw [hb] at status
    split at status <;> cases status

/-- A pass over a whole record that has ended has taken its steps. -/
theorem PassStage.passSteps_le {cfg : Config} {text bs : List Byte} {p₀ : Memory} {k : Nat} {d : Decoder} {r : Record}
    (h : PassStage cfg text p₀ k d r) (hb : d.status ≠ .busy) (hbs : recordBytes cfg text = some bs) :
    passSteps bs ≤ k := by
  obtain ⟨hnone, _⟩ | ⟨l, ah, al, t, body, cc, p, hbs', _, _, hk, _⟩ := h.ended_cases hb
  · cases hnone.symm.trans hbs
  · cases hbs'.symm.trans hbs
    exact hk

/-- Settles O57: the stage of a running pass has a step to go, and the stage of an ended pass has none. -/
theorem passTakesItsSteps : Obligations.PassTakesItsSteps := fun s bs h hb hbs => by
  have hfive := five_le_passSteps hbs
  obtain ⟨t, ht, htstage, _⟩ := h.passStage_after hb (passSteps bs - 1)
  obtain ⟨u, hu, hustage, _⟩ := h.passStage_after hb (passSteps bs)
  refine ⟨t, u, ht, ?_, hu, fun hub => absurd (hustage.lt_passSteps hub hbs) (Nat.lt_irrefl _)⟩
  by_contra htb
  have := htstage.passSteps_le htb hbs
  omega

/-! ### What a pass ends with (R166) -/

theorem runWords_append {xs : List CmdWord} : ∀ {ws : List CmdWord} {s t : State}, runWords ws s = .next t →
    runWords (ws ++ xs) s = runWords xs t
  | [], _, _, h => by cases h; rfl
  | w :: ws, s, t, h => by
    rw [runWords] at h
    rw [List.cons_append, runWords]
    split at h
    · next hc => exact runWords_append h
    · cases h
    · cases h

theorem runWords_nops_of_not_busy {s : State} (hb : s.dec.status ≠ .busy) :
    ∀ n, runWords (List.replicate n nopWord) s = .next s
  | 0 => rfl
  | n + 1 => (runWords_cons (cycle_nop_of_not_busy hb)).trans (runWords_nops_of_not_busy hb n)

/-- A pass ends within the longest pass of NOP cycles (R250). -/
theorem Inv.not_busy_after_longestPass {s t : State} (h : Inv s) (hb : s.dec.status ≠ .busy)
    (ht : runTrace [.decode, .idle (s.cfg.maxDataBytes + 6)] s = .next t) : t.dec.status ≠ .busy := by
  obtain ⟨k, u, hk, _, hu, hub⟩ := h.start.waitDec_ends fun _ => h.start.stepsLeft_le_longestPass
  have hall : List.replicate (s.cfg.maxDataBytes + 6) nopWord =
      List.replicate k nopWord ++ List.replicate (s.cfg.maxDataBytes + 6 - k) nopWord := by
    rw [List.replicate_append_replicate]
    exact congrArg (List.replicate · nopWord) (Nat.add_sub_cancel' hk).symm
  have hrun : runWords (List.replicate (s.cfg.maxDataBytes + 6) nopWord) (startPass s) = .next u := by
    rw [hall, runWords_append hu, runWords_nops_of_not_busy hub]
  cases (ht.symm.trans (runTrace_decode hb _)).trans hrun
  exact hub

/-- The comparison is of the last byte with `neg8` of the sum of the others (R127). -/
theorem checksumHolds_concat (bs : List Byte) (cc : Byte) :
    checksumHolds (bs ++ [cc]) = decide (cc = neg8 (sum8 bs)) := by
  rw [checksumHolds, List.getLast?_concat, List.dropLast_concat]
  simp only [Option.some_inj]

/-- The registers of a pass that has read a whole record, whatever the comparison of the checksum gave. -/
theorem registersHold_fieldsRead (l ah al t cc : Byte) (body : List Byte) (p : Memory) (v : Bool) :
    RegistersHold ([l, ah, al, t] ++ body ++ [cc]) { fieldsRead l ah al t body p with valid := v } := by
  have hvalue : extValue ([l, ah, al, t] ++ body ++ [cc]) = BitVec.ofNat 32 (be body) := by
    show BitVec.ofNat 32 (be (body ++ [cc]).dropLast) = _
    rw [List.dropLast_concat]
  refine ⟨l, ah, al, t, body ++ [cc], rfl, rfl, rfl, rfl, ?_, ?_, ?_⟩
  · rw [List.dropLast_concat]
    rfl
  · rw [hvalue]
    rfl
  · rw [hvalue]
    rfl

/-- The payload cells after a pass that has read a payload which fits in `PAY`. -/
theorem PayRead.payByte {s u : State} {data : List Byte} (h : PayRead s.rcd.pay data u.rcd.pay) (hcfg : u.cfg = s.cfg)
    (hfits : data.length ≤ s.cfg.maxDataBytes) (i : Nat) :
    u.payByte i = if i < data.length then data[i]? else s.payByte i := by
  by_cases hi : i < s.cfg.maxDataBytes
  · simp only [State.payByte, hcfg, if_pos hi]
    exact h i
  · have hge := Nat.le_of_not_lt hi
    rw [payByte_eq_none (hcfg ▸ hge), if_neg (Nat.not_lt.2 (hfits.trans hge)), payByte_eq_none hge]

/-- The payload store of a pass that has read a whole record. -/
theorem PayRead.payloadHolds {s u : State} {l ah al t : Byte} {body : List Byte} (cc : Byte)
    (h : PayRead s.rcd.pay (payloadOf t body) u.rcd.pay) (hcfg : u.cfg = s.cfg)
    (hw : charsNeeded s.cfg l t = some (2 * (body.length + 5))) :
    PayloadHolds ([l, ah, al, t] ++ body ++ [cc]) s u := fun i => by
  have hbody : (([l, ah, al, t] ++ body ++ [cc]).drop 4).dropLast = body := List.dropLast_concat
  have htype : ([l, ah, al, t] ++ body ++ [cc])[3]? = some t := rfl
  have hcell : ([l, ah, al, t] ++ body ++ [cc])[4 + i]? = (body ++ [cc])[i]? := by
    rw [Nat.add_comm]
    rfl
  rw [hbody, htype, hcell]
  by_cases ht : t = 0x00#8
  · subst ht
    rw [h.payByte hcfg (length_of_charsNeeded_data hw).2 i, payloadOf, if_pos rfl]
    by_cases hi : i < body.length
    · rw [if_pos hi, if_pos ⟨rfl, hi⟩, List.getElem?_append_left hi]
    · rw [if_neg hi, if_neg fun hc => hi hc.2]
  · rw [payloadOf, if_neg ht] at h
    have hkept : u.payByte i = s.payByte i := (h.payByte hcfg (Nat.zero_le _) i).trans (if_neg (Nat.not_lt_zero i))
    rw [hkept, if_neg fun hc => ht (Option.some.inj hc.1)]

/-- Settles O55: a pass that has ended has found that the line holds no record, or has read the whole of it. -/
theorem passDecodesTheLine : Obligations.PassDecodesTheLine := fun s h hb => by
  obtain ⟨t, ht, hstage, hcfg⟩ := h.passStage_after hb (s.cfg.maxDataBytes + 6)
  refine ⟨t, ht, ?_⟩
  obtain ⟨hnone, hs, hv⟩ | ⟨l, ah, al, tt, body, cc, p, hbs, hw, hp, _, _, hs, hr⟩ :=
    hstage.ended_cases (h.not_busy_after_longestPass hb ht)
  · rw [hnone]
    exact ⟨hs, hv⟩
  · have hpay : p = t.rcd.pay := by rw [hr]; rfl
    rw [hbs]
    simp only [checksumHolds_concat, decide_eq_true_eq]
    refine ⟨hs, by rw [hr], ?_, PayRead.payloadHolds cc (hpay ▸ hp) hcfg hw⟩
    rw [hr]
    exact registersHold_fieldsRead l ah al tt cc body p _

/-! ### A pass depends on its line alone (R167) -/

/-- `Decode` ends with the stage of an ended pass (R19). -/
theorem Inv.passStage_of_hostDecode {s t : State} (h : Inv s) (hb : s.dec.status ≠ .busy) (ht : hostDecode s = .next t) :
    t.dec.status ≠ .busy ∧ ∃ k, PassStage s.cfg (lineText s) s.rcd.pay k t.dec t.rcd := by
  obtain ⟨k, u, _, hw, hu, hub⟩ := h.start.waitDec_ends fun _ => h.start.stepsLeft_le_longestPass
  obtain ⟨v, hv, hstage, _⟩ := h.passStage_after hb k
  cases (ht.symm.trans (runTrace_decode hb .waitdec)).trans hw
  cases (hv.symm.trans (runTrace_decode hb (.idle k))).trans hu
  exact ⟨hub, k, hstage⟩

/-- Settles O56: the two passes go in lockstep, and after a whole Data record `didx` has counted its payload. -/
theorem passDependsOnlyOnTheLine : Obligations.PassDependsOnlyOnTheLine := fun s u hs hu hcfg htext hbs hbu => by
  obtain ⟨s', u', hs', hu', hsame⟩ := SamePass.hostDecode hs hu hcfg htext hbs hbu
  obtain ⟨hended, k, hstage⟩ := hs.passStage_of_hostDecode hbs hs'
  have hcount : s'.dec.status = .successful ∨ s'.dec.status = .checksumError → s'.rcd.type = 0x00#8 →
      s'.dec.didx = s'.rcd.length.toNat := fun hstatus htype => by
    obtain ⟨_, hfail | hfail, _⟩ | ⟨l, ah, al, t, body, cc, p, _, hw, _, _, hdidx, _, hr⟩ := hstage.ended_cases hended
    · simp [hfail] at hstatus
    · simp [hfail] at hstatus
    · rw [hr] at htype ⊢
      cases htype
      exact hdidx.trans (length_of_charsNeeded_data hw).1
  obtain ⟨l, p, ins, _, pay⟩ := hsame
  exact ⟨s', _, hs', hu', rfl, rfl, pay, hcount⟩

end Sys2Proof.Machine

/-! The commands beside a pass (O1, O10, O11, O36). DECODE and INIT get one equation per case, and a step the branches of
`CYCLE` (43_commands.md R180): reset, the command alone, or the command beside the decoder step of a running pass. -/

namespace Sys2Proof.Machine

/-! ### The commands (R182 to R184) -/

/-- DECODE with no pass running starts one (R182). -/
theorem exec_decode_of_not_busy {s : State} (hb : s.dec.status ≠ .busy) : exec .decode s = .next (startPass s) := if_neg hb

/-- DECODE is ignored while a pass runs (R182). -/
theorem exec_decode_of_busy {s : State} (hb : s.dec.status = .busy) : exec .decode s = .next s := if_pos hb

/-- INIT resets both machines and keeps the rest, `LB` included (R183). -/
theorem exec_init (s : State) :
    exec .init s = .next ((s.setLa { LineAsm.reset with lb := s.la.lb }).setDec Decoder.reset) := rfl

/-- INIT is idempotent (R183): a second one finds every element it writes at its value. -/
theorem exec_init_idem {s t : State} (h : exec .init s = .next t) : exec .init t = .next t := by
  cases h
  rfl

/-- Settles O1: the step joined to a NOP lands on the state at the start of the cycle, of which it wrote its own part. -/
theorem nopWritesNothing : Obligations.NopWritesNothing :=
  ⟨decodeCommand_op0, exec_nop, fun _ _ hb hstep => cycle_nop_of_step hb hstep⟩

/-- Settles O10: the status alone decides what DECODE does, not the line. -/
theorem decodeStartsPassUnlessBusy : Obligations.DecodeStartsPassUnlessBusy :=
  ⟨decodeCommand_op2, rfl, fun _ => ⟨exec_decode_of_not_busy, exec_decode_of_busy⟩⟩

/-- Settles O11: a cycle with INIT has no decoder step, so it is INIT alone, and INIT is idempotent. -/
theorem initResetsBothMachines : Obligations.InitResetsBothMachines :=
  ⟨decodeCommand_op3, fun s => ⟨exec_init s, (commandCycle_init s).trans (exec_init s), exec_init_idem (exec_init s)⟩⟩

/-! ### The branches of a cycle (R180) -/

/-- The command is alone in its cycle with no pass running, and so is INIT always (R140, R180). -/
theorem commandCycle_alone {i : Instr} {s : State} (h : s.dec.status ≠ .busy ∨ i = .init) :
    commandCycle i s = exec i s := by
  obtain hb | rfl := h
  · exact commandCycle_not_busy hb
  · exact commandCycle_init s

/-- A decoder step that faults makes its cycle fault, whatever the command does. -/
theorem commandCycle_busy_fault {i : Instr} {s : State} {f : Fault} (hb : s.dec.status = .busy) (hi : i ≠ .init)
    (hf : exec (decStateInstr s.dec.state) s = .fault f) : commandCycle i s = .fault f := by
  rw [commandCycle_busy hb hi, hf]
  rfl

/-- Settles O36: a step is the cycle of the sampled input, which is reset or the cycle of the decoded command. -/
theorem stepRunsTheDecodedCommand : Obligations.StepRunsTheDecodedCommand := fun s x rest hx => by
  obtain ⟨rst, w⟩ := x
  rw [step_of_inputs hx]
  refine ⟨?reset, ?command⟩
  case reset =>
    rintro rfl
    exact cycle_reset w _
  case command =>
    rintro rfl
    rw [cycle_command]
    exact ⟨wellFormed_decodeCommand w, commandCycle_alone (s := s.setInputs rest), fun hb hi =>
      ⟨fun _ _ hd hc => commandCycle_busy_next (s := s.setInputs rest) hb hi hd hc,
        fun _ hf => commandCycle_busy_fault (s := s.setInputs rest) hb hi hf⟩⟩

end Sys2Proof.Machine

/-! Whole runs and the rest between passes (O43, O48). No run stops, because from the invariant every cycle answers and keeps
it (60_exceptions.md R207); and with no pass running a cycle is its command alone, so a command that leaves the decoder alone
leaves a terminal status and its record standing (R206). -/

namespace Sys2Proof.Machine

/-! ### Runs from the invariant (R207) -/

/-- Every run from the invariant, on any inputs, answers and keeps it. -/
theorem Inv.runInputs_answers : ∀ (xs : List CycleInput) {s : State}, Inv s → ∃ t, runInputs xs s = .next t ∧ Inv t
  | [], s, h => ⟨s, rfl, h⟩
  | x :: xs, _, h => by
    obtain ⟨u, hu⟩ := h.cycle_answers x
    rw [runInputs_cons hu]
    exact (h.after_cycle hu).runInputs_answers xs

/-- Settles O48: the state after reset has the invariant. -/
theorem noInputSequenceStops : Obligations.NoInputSequenceStops := fun c xs =>
  (resetHasTheInvariant.2 c []).runInputs_answers xs

/-! ### Cycles with no pass running (R206) -/

/-- With no pass running a cycle without reset is its command alone (R180). -/
theorem cycle_command_of_not_busy {w : CmdWord} {s : State} (hb : s.dec.status ≠ .busy) :
    cycle { rst := false, cmd := w } s = exec (decodeCommand w) s :=
  (cycle_command w s).trans (commandCycle_not_busy hb)

/-- Settles O43: NOP writes nothing, and FEED nothing outside the Line Assembler. -/
theorem terminalStatusStays : Obligations.TerminalStatusStays := fun s w hb hw => by
  rw [cycle_command_of_not_busy hb]
  obtain hnop | hfeed := hw
  · exact ⟨s, hnop ▸ exec_nop s, rfl, rfl⟩
  · rw [hfeed, exec_feed]
    exact ⟨_, rfl, rfl, rfl⟩

end Sys2Proof.Machine

/-! Reset and the hazards around it (O38 to O40, O44). A cycle with `rst = 1` is `applyReset`, which depends on nothing but
`LB`, the parameters and the inputs, so a second one changes nothing (70_reset_and_hazards.md R231). A start marker beside a
pass leaves no completed line, and then every field the pass still has to read is short (R241). -/

namespace Sys2Proof.Machine

/-! ### Reset cycles (R231) -/

/-- A reset right after a reset finds every element it writes at its value (R231). -/
theorem applyReset_idem (s : State) : applyReset (applyReset s) = applyReset s := rfl

theorem runInputs_singleton (x : CycleInput) (s : State) : runInputs [x] s = cycle x s := by
  rw [runInputs]
  cases cycle x s <;> rfl

/-- A run that begins with reset cycles, one or more, is the rest of the run from the state after one reset, whatever the
commands (R231). -/
theorem runInputs_resets_append {ws : List CmdWord} (hws : ws ≠ []) (xs : List CycleInput) (s : State) :
    runInputs ((ws.map fun w => { rst := true, cmd := w }) ++ xs) s = runInputs xs (applyReset s) := by
  induction ws generalizing s with
  | nil => exact absurd rfl hws
  | cons w ws ih =>
    rw [List.map_cons, List.cons_append, runInputs_cons (cycle_reset w s)]
    cases ws with
    | nil => rfl
    | cons v ws => rw [ih (List.cons_ne_nil v ws), applyReset_idem]

/-- Settles O38: the reset cycles together are one reset, and the next cycle is the rest of the run. -/
theorem resetCyclesGiveResetState : Obligations.ResetCyclesGiveResetState := fun s ws hws => by
  refine ⟨applyReset s, ?_, applyReset_la s, applyReset_dec s, applyReset_rcd s, applyReset_inputs s, applyReset_cfg s,
    fun x => ?_⟩
  · simpa only [List.append_nil, runInputs] using runInputs_resets_append hws [] s
  · rw [runInputs_resets_append hws, runInputs_singleton]

/-! ### A start marker during a pass (R241) -/

/-- From the invariant, the cycle of a FEED answers, and the Line Assembler takes the byte's path (R56, R100). -/
theorem Inv.commandCycle_feed_la {s : State} (h : Inv s) (b : Byte) :
    ∃ t, commandCycle (.feed b) s = .next t ∧ t.la = lineFeedByte s.cfg.lineCap b s.la :=
  cycle_feedWord b s ▸ h.cycle_feedWord_la b

/-- No field is empty (R57, R157). -/
theorem fieldWidth_pos {s : State} {k : DecState} {n : Nat} (h : fieldWidth s k = some n) : 0 < n := by
  cases k with
  | getLength => cases h; exact Nat.one_pos
  | getAddress => cases h; exact Nat.two_pos
  | getType => cases h; exact Nat.one_pos
  | getData => cases h; exact Nat.one_pos
  | getExt => exact Nat.zero_lt_of_lt (two_le_of_extBytes h)
  | getChecksum => cases h; exact Nat.one_pos
  | init => cases h
  | error => cases h
  | done => cases h

/-- With no completed line every field step raises ParseError, wherever the read cursor stands (R142). -/
theorem exec_fieldStep_of_no_line {s : State} {k : DecState} (hlen : s.la.lineLen = 0) (hk : (fieldWidth s k).isSome) :
    exec (decStateInstr k) s = .next (raiseParse s) := by
  obtain ⟨n, hn⟩ := Option.isSome_iff_exists.1 hk
  obtain ⟨body, hbody⟩ := exec_eq_withField_of_fieldWidth hn
  have hpos := fieldWidth_pos hn
  exact hbody.trans (withField_short (by omega))

/-- Settles O44: LA_START drops the completed line, the next field step is short, and the ERROR step after it reports. -/
theorem startMarkerDuringPassAbortsIt : Obligations.StartMarkerDuringPassAbortsIt := fun s h hb => by
  refine ⟨fun ha => ?marker, fun hlen hk => ?failure⟩
  case marker =>
    obtain ⟨t, ht, hla⟩ := h.commandCycle_feed_la startChar
    exact ⟨t, ht, by rw [hla, lineFeedByte_start _ ha]; rfl⟩
  case failure =>
    obtain ⟨_, _, hnop⟩ := nopWritesNothing
    have hraise : commandCycle .nop s = .next (raiseParse s) := hnop _ _ hb (exec_fieldStep_of_no_line hlen hk)
    have hreport : commandCycle .nop (raiseParse s) = .next (finish .parseError (raiseParse s)) := hnop _ _ hb rfl
    exact ⟨_, _, hraise, rfl, hreport, rfl⟩

/-! ### RESET_STATE and INIT (R230, R233) -/

/-- `PAY` with no cell listed reads as 0x00 (R37). -/
theorem payByte_of_record_reset {s : State} {i : Nat} (hr : s.rcd = Record.reset) (hi : i < s.cfg.maxDataBytes) :
    s.payByte i = some 0x00#8 := by
  rw [State.payByte, if_pos hi, hr]
  rfl

/-- Settles O39: the registers stand in `RESET_STATE` as R230 lists them, and no cell of `PAY` is listed. -/
theorem resetValues : Obligations.ResetValues := fun _ _ =>
  ⟨rfl, rfl, rfl, rfl, rfl, rfl, rfl, rfl, rfl, rfl, rfl, rfl, rfl, rfl, rfl,
    fun _ hi => payByte_of_record_reset rfl hi⟩

/-- INIT changes nothing where both machines stand as reset leaves them (R233). -/
theorem exec_init_of_reset {s : State} (hla : s.la = { LineAsm.reset with lb := s.la.lb }) (hdec : s.dec = Decoder.reset) :
    exec .init s = .next s := by
  rw [exec_init, ← hla, ← hdec]
  rfl

/-- Settles O40: INIT and reset write the two machines alike and keep `LB`; reset alone writes the record, and leaves INIT
nothing to change. -/
theorem initComparedWithReset : Obligations.InitComparedWithReset :=
  ⟨fun s w => ⟨_, _, exec_init s, cycle_reset w s, rfl, rfl, rfl, rfl, fun i => ⟨rfl, applyReset_lineByte s i⟩, rfl, rfl,
    fun _ hi => payByte_of_record_reset (applyReset_rcd s) hi, exec_init_of_reset (applyReset_la s) (applyReset_dec s)⟩,
   fun _ _ => exec_init_of_reset rfl rfl⟩

end Sys2Proof.Machine
